-- ==== Sys2Proof/Word.lean ====
section
/-! DEFINITION. The data types of the core (00_scope.md R13, 10_state.md): bytes, the register widths,
pixels, the colour cache and the canonical memory list. -/

namespace Sys2Proof

/-- `u8` (R13). -/
abbrev Byte := BitVec 8

/-- `u32`, the width `DIM_W` of a surface dimension (R9). -/
abbrev U32 := BitVec 32

/-- `u64`, the width `IDX_W` of a linear index, a position and a cache slot (R9, D5). -/
abbrev U64 := BitVec 64

/-- A cache slot number, `SLOT_W` = 6 bits (R9). -/
abbrev Slot := BitVec 6

/-- `Pixel`: four independent 8-bit channels in the order R, G, B, A (R13, R73, R150). -/
structure Pixel where
  r : Byte
  g : Byte
  b : Byte
  a : Byte
  deriving DecidableEq, Repr

/-- A colour cache: 64 slots, each a `u64` linear index (R41, R51, D16). -/
abbrev Cache := Vector U64 64

/-- One of the external memories of R70: (address, unit) pairs, addresses strictly rising. An unlisted
address holds no value (entry 11). A byte buffer is a `Memory Byte`, that is a list of `Host.Cell`. -/
abbrev Memory (α : Type) := List (Nat × α)

end Sys2Proof
end

