-- ==== Sys2Proof/Syntax.lean ====
section
/-! DEFINITION. The instruction set: the six chunk kinds (00_scope.md R3, 30_encoding.md R110), one
constructor per row of spec/opcode_table.json, with the operands of the notation of R127. -/

namespace Sys2Proof

/-- A chunk. Deltas are signed and unbiased, and a run count is 1-based (R127). -/
inductive Instr where
  /-- IDX ("cache index"): the slot (R111). -/
  | idx (s : Slot)
  /-- DIFF ("small RGB delta"): the red, green and blue deltas (R112). -/
  | diff (dr dg db : Int)
  /-- LUMA ("luma delta"): the green delta, red minus green, blue minus green (R113). -/
  | luma (dg drg dbg : Int)
  /-- RUN ("run length"): the repeat count (R114). -/
  | run (n : Nat)
  /-- RGB ("opaque literal"): red, green, blue (R115). -/
  | rgb (r g b : Byte)
  /-- RGBA ("full literal"): red, green, blue, alpha (R116). -/
  | rgba (r g b a : Byte)
  deriving DecidableEq, Repr

end Sys2Proof
end

