-- ==== Sys2Proof/WellFormed.lean ====
section
/-! DEFINITION. The operand ranges of the six chunk kinds (30_encoding.md R114, R120). -/

namespace Sys2Proof

/-- `lo <= v <= hi`. -/
def inRange (lo hi v : Int) : Bool := decide (lo ≤ v) && decide (v ≤ hi)

/-- The operands lie in the ranges their fields can hold: DIFF deltas -2..1, LUMA green -32..31 and
differences -8..7 (R120), RUN counts 1..62 (R114). Slots and literal channels hold any value (R125). -/
def Instr.wf : Instr → Bool
  | .idx _ => true
  | .diff dr dg db => inRange (-2) 1 dr && inRange (-2) 1 dg && inRange (-2) 1 db
  | .luma dg drg dbg => inRange (-32) 31 dg && inRange (-8) 7 drg && inRange (-8) 7 dbg
  | .run n => decide (1 ≤ n) && decide (n ≤ 62)
  | .rgb _ _ _ => true
  | .rgba _ _ _ _ => true

end Sys2Proof
end

