-- ==== Sys2Proof/Decode.lean ====
section
/-! DEFINITION. Chunk decoding, total on any bytes and rejecting by name (30_encoding.md R110 to R124),
then the encoder of the same formats, and the host's table-word entry point. -/

namespace Sys2Proof

/-- `b[hi:lo]`: the unsigned value of bits hi down to lo (R12). -/
def bits (b : Byte) (hi lo : Nat) : Nat := (b.toNat >>> lo) % 2 ^ (hi + 1 - lo)

/-- Why a byte list holds no whole chunk. No first byte is illegal (R118, R125), so bytes are missing. -/
inductive DecodeError where
  /-- The list is empty. -/
  | noByte
  /-- The first byte selects the named chunk, whose operand bytes are missing. -/
  | truncated (mnemonic : String)
  deriving DecidableEq, Repr

/-- `len(b0)`: a chunk's length, a function of its first byte alone (R117). -/
def chunkLen (b0 : Byte) : Nat :=
  if b0 = 0xFF then 5
  else if b0 = 0xFE then 4
  else if bits b0 7 6 = 0b10 then 2
  else 1

/-- The operands of a 1-byte chunk whose tag is 00, 01 or 11 (R111, R121, R123). -/
def decodeByte (b0 : Byte) : Instr :=
  if bits b0 7 6 = 0b00 then .idx (BitVec.ofNat 6 (bits b0 5 0))
  else if bits b0 7 6 = 0b01 then
    .diff ((bits b0 5 4 : Int) - 2) ((bits b0 3 2 : Int) - 2) ((bits b0 1 0 : Int) - 2)
  else .run (bits b0 5 0 + 1)

/-- The operands of the two bytes of a LUMA chunk (R122). -/
def decodeLuma (b0 b1 : Byte) : Instr :=
  .luma ((bits b0 5 0 : Int) - 32) ((bits b1 7 4 : Int) - 8) ((bits b1 3 0 : Int) - 8)

/-- The chunk at the head of a byte list, with the bytes after it. The exact bytes 0xFF and 0xFE are
tested before the tag (R119, R207). -/
def decode : List Byte → Except DecodeError (Instr × List Byte)
  | [] => .error .noByte
  | b0 :: rest =>
    if b0 = 0xFF then
      match rest with
      | r :: g :: b :: a :: rest' => .ok (.rgba r g b a, rest')
      | _ => .error (.truncated "RGBA")
    else if b0 = 0xFE then
      match rest with
      | r :: g :: b :: rest' => .ok (.rgb r g b, rest')
      | _ => .error (.truncated "RGB")
    else if bits b0 7 6 = 0b10 then
      match rest with
      | b1 :: rest' => .ok (decodeLuma b0 b1, rest')
      | [] => .error (.truncated "LUMA")
    else .ok (decodeByte b0, rest)

/-- A byte from the number of the spec's assembly formulas. -/
def toByte (n : Nat) : Byte := BitVec.ofNat 8 n

/-- A signed delta stored bias-coded: `field = delta + bias` (R120). -/
def biased (bias : Int) (delta : Int) : Nat := (delta + bias).toNat

/-- `runByte(n) = 0xC0 | (n - 1)` (R149). -/
def runByte (n : Nat) : Byte := toByte (0xC0 ||| (n - 1))

/-- The bytes of a well-formed chunk (R111, R121, R122, R123, R124). -/
def encode : Instr → List Byte
  | .idx s => [toByte (0x00 ||| s.toNat)]
  | .diff dr dg db => [toByte (0x40 ||| biased 2 dr <<< 4 ||| biased 2 dg <<< 2 ||| biased 2 db)]
  | .luma dg drg dbg =>
    [toByte (0x80 ||| biased 32 dg), toByte (biased 8 drg <<< 4 ||| biased 8 dbg)]
  | .run n => [runByte n]
  | .rgb r g b => [0xFE, r, g, b]
  | .rgba r g b a => [0xFF, r, g, b, a]

/-- How many bytes a chunk occupies (R110). -/
def Instr.length : Instr → Nat
  | .idx _ => 1
  | .diff _ _ _ => 1
  | .luma _ _ _ => 2
  | .run _ => 1
  | .rgb _ _ _ => 4
  | .rgba _ _ _ _ => 5

/-- The bytes of an instruction given as a table word: byte k is bits 8k+7..8k, every bit from `nbits`
up is 0, and the longest chunk has five bytes. -/
def tableBytes (nbits w : Nat) : List Byte :=
  let v := w % 2 ^ nbits
  [toByte v, toByte (v >>> 8), toByte (v >>> 16), toByte (v >>> 24), toByte (v >>> 32)]

/-- The instruction the decoder reads from a table word. -/
def decodeTableWord (nbits w : Nat) : Option Instr :=
  match decode (tableBytes nbits w) with
  | .ok (i, _) => some i
  | .error _ => none

end Sys2Proof
end

