-- ==== Sys2Proof/Config.lean ====
section
/-! DEFINITION. The parameters of an instance (00_scope.md R9 to R11), the constants of R9, and the free
values: opaque constants no proof can see, one for each width. -/

namespace Sys2Proof

/-- The four bytes of the magic signature, byte 0 first (R102). -/
structure Magic where
  b0 : Byte
  b1 : Byte
  b2 : Byte
  b3 : Byte
  deriving DecidableEq, Repr

/-- `DELTA_MODE` (R11): how the encoder takes a channel difference. -/
inductive DeltaMode where
  | plain
  | wrap
  deriving DecidableEq, Repr

/-- The open parameters of R9, fixed for one instance of the hardware (R58). -/
structure Params where
  magic : Magic
  deltaMode : DeltaMode
  deriving DecidableEq, Repr

/-- The spec's defaults (D3, D4): "qoif" and PLAIN. PRESUMED by the spec for the magic (R10), entry 5. -/
def Config.defaults : Params :=
  { magic := ⟨0x71, 0x6F, 0x69, 0x66⟩, deltaMode := .plain }

/-- `PREV_INIT`: opaque black (R9, R39). -/
def Config.prevInit : Pixel := ⟨0, 0, 0, 255⟩

/-- `RUN_MAX` (R9, C1). -/
def Config.runMax : Nat := 62

/-- `HDR_LEN` (R9). -/
def Config.hdrLen : Nat := 14

/-- `END_LEN` (R9). -/
def Config.endLen : Nat := 8

/-- The end marker (R105). -/
def Config.endMarker : List Byte := [0, 0, 0, 0, 0, 0, 0, 1]

/-- `CHANNELS_OUT` (R9, R104). -/
def Config.channelsOut : Byte := 4

/-- `COLORSPACE_OUT` (R9, R104). -/
def Config.colorspaceOut : Byte := 0

/-- Free values (entries 2, 4): the first argument is the number of the draw, the second tells the
registers of one draw apart. None has a body, so nothing can be proved of a value. -/
opaque Config.freeU64 : Nat → Nat → BitVec 64
opaque Config.freeU32 : Nat → Nat → BitVec 32
opaque Config.freeU8 : Nat → Nat → BitVec 8
opaque Config.freeU6 : Nat → Nat → BitVec 6

/-- The value of `enc.opos` while the output buffer lists 2^64 or more bytes, for which the spec states
none (entry 16); the argument is how many it lists. -/
opaque Config.oposPastEnd : Nat → BitVec 64

end Sys2Proof
end

