-- ==== Sys2Proof/Machine/State.lean ====
section
/-! DEFINITION. The state of the core and of its host port as plain data (10_state.md R35 to R62), the
reasons a step can stop, and the state after power-on (70_reset_and_hazards.md R280). -/

namespace Sys2Proof.Machine

/-- `enc.phase` (R35). -/
inductive EncPhase where
  | idle
  | header
  | pixels
  | finish
  | done
  deriving DecidableEq, Repr

/-- `dec.phase` (R45). -/
inductive DecPhase where
  | idle
  | header
  | chunks
  | finish
  | done
  | error
  deriving DecidableEq, Repr

/-- The causes of a FormatError (R251 to R256). -/
inductive Cause where
  | badMagic
  | shortInput
  | truncatedChunk
  | pixelOverflow
  | unwrittenRef
  | pixelUnderflow
  deriving DecidableEq, Repr

/-- The encoder engine's registers and bindings (R35 to R43). -/
structure EncState where
  phase : EncPhase
  W : U32
  H : U32
  i : U64
  prev : Pixel
  run : BitVec 6
  cache : Cache
  opos : U64
  /-- `enc.src`: the input surface's pixels by linear index. -/
  src : Memory Pixel
  /-- `enc.dst`: the output byte buffer. -/
  dst : Memory Byte
  deriving DecidableEq, Repr

/-- `enc.N` (R37), exact. -/
def EncState.N (e : EncState) : Nat := e.W.toNat * e.H.toNat

/-- The decoder engine's registers and bindings (R45 to R54). The bits `dec.written` are held by `dst`:
position q is listed there exactly where bit q is set (R53, entry 10). -/
structure DecState where
  phase : DecPhase
  pos : U64
  len : U64
  W : U32
  H : U32
  chan : Byte
  cs : Byte
  p : U64
  prev : Pixel
  cache : Cache
  cause : BitVec 8
  epos : U64
  /-- `dec.src`: the input byte buffer. -/
  src : Memory Byte
  /-- `dec.dst`: the output surface's pixels by linear index; a position not listed holds no value. -/
  dst : Memory Pixel
  /-- The model's own (entry 12): how many pixels the largest output surface the host can supply has. -/
  supply : Nat
  deriving DecidableEq, Repr

/-- `dec.N` (R48), exact. -/
def DecState.N (d : DecState) : Nat := d.W.toNat * d.H.toNat

/-- What the host can do (R32, R56, R284). -/
inductive HostAction where
  /-- ENCODE START (R160) with a surface, row by row, and an empty buffer with room for `room` bytes. -/
  | startEncode (W H : U32) (pixels : List Pixel) (room : Nat)
  /-- DECODE START (R200) with a buffer; the host can supply an output surface of up to `supply` pixels. -/
  | startDecode (bytes : List Byte) (supply : Nat)
  /-- Read `enc.phase` and `enc.opos` (R56). -/
  | readEncStatus
  /-- Read the decoder's status registers (R56). -/
  | readDecStatus
  /-- Read the encoded buffer (R170, R292). -/
  | readEncoded
  /-- Read the decoded surface (R210, R292). -/
  | readDecoded
  deriving DecidableEq, Repr

/-- Who moves next (R30, entry 6). -/
inductive Move where
  | host (a : HostAction)
  | enc
  | dec
  deriving DecidableEq, Repr

/-- What a host read returns (R56, R292). -/
inductive HostView where
  | encStatus (phase : EncPhase) (opos : U64)
  | decStatus (phase : DecPhase) (cause : BitVec 8) (epos : U64) (W H : U32) (chan cs : Byte)
  | encoded (opos : U64) (bytes : Memory Byte)
  | decoded (W H : U32) (pixels : Memory Pixel)
  deriving DecidableEq, Repr

/-- The host port, the model's own (entries 6, 13): the moves to come and what the host has read, each
oldest first. -/
structure HostState where
  agenda : List Move
  seen : List HostView
  deriving DecidableEq, Repr

/-- The whole state. `cfg` holds the instance's parameters and no step writes it (R58, entry 5); `draws`
counts the draws of free values made so far (entry 4). -/
structure State where
  cfg : Params
  enc : EncState
  dec : DecState
  host : HostState
  draws : Nat
  deriving DecidableEq, Repr

/-- A step that would read a location outside the space the spec gives. No run from reset meets one
(entry 14). -/
inductive Fault where
  /-- ENC reads a surface position that its surface does not hold (raised by the pixel step). Safe. -/
  | surfaceRead
  /-- DEC reads a byte position that its buffer does not hold (raised by the header and the chunk step). Safe. -/
  | bufferRead
  deriving DecidableEq, Repr

/-- A step the model gives no meaning to, because the spec gives it none. -/
inductive Refusal where
  /-- An instruction without a meaning yet (raised by exec). Safe. -/
  | notModelled (mnemonic : String)
  /-- A START during an operation of the same instance (R269, U5), raised by the host's START. Safe. -/
  | startWhileRunning
  /-- A result read in a phase other than DONE (R269, R292, U4), raised by the host's read. Safe. -/
  | resultBeforeDone
  /-- The host cannot supply a W x H output surface (R204, D24, K3), raised by DEC's header step. Safe. -/
  | noOutputSurface
  /-- The host's output buffer has no room for 22 + 5 N bytes (R80, D15, U7), raised by ENCODE START. Safe. -/
  | noOutputRoom
  /-- The surface bound at ENCODE START does not hold W * H pixels (R284, K6), raised by it. Safe. -/
  | surfaceNotWhole
  /-- The buffer bound at DECODE START has 2^64 or more bytes (entry 15), raised by it. Safe. -/
  | bufferTooLong
  /-- The dispatch found no arm for a chunk (R257, K2), raised by the chunk step; unreachable (R218). Safe. -/
  | dispatchDefect
  deriving DecidableEq, Repr

/-- A cache of free values of one draw; slot s is told apart by its number. -/
def Cache.free (draw : Nat) : Cache := Vector.ofFn fun s => Config.freeU64 draw (64 + s.val)

/-- A pixel of free values of one draw. -/
def Pixel.free (draw : Nat) (k : Nat) : Pixel :=
  ⟨Config.freeU8 draw (4 * k), Config.freeU8 draw (4 * k + 1), Config.freeU8 draw (4 * k + 2),
    Config.freeU8 draw (4 * k + 3)⟩

/-- ENC at power-on: IDLE, every other register a draw (R62, R280, entry 2), nothing bound (entry 3). -/
def EncState.powerOn : EncState :=
  { phase := .idle
    W := Config.freeU32 0 0
    H := Config.freeU32 0 1
    i := Config.freeU64 0 0
    prev := Pixel.free 0 0
    run := Config.freeU6 0 0
    cache := Vector.ofFn fun s => Config.freeU64 0 (128 + s.val)
    opos := Config.freeU64 0 1
    src := []
    dst := [] }

/-- DEC at power-on: IDLE, every other register a draw (R62, R280, entry 2), nothing bound (entry 3). -/
def DecState.powerOn : DecState :=
  { phase := .idle
    pos := Config.freeU64 0 2
    len := Config.freeU64 0 3
    W := Config.freeU32 0 2
    H := Config.freeU32 0 3
    chan := Config.freeU8 0 8
    cs := Config.freeU8 0 9
    p := Config.freeU64 0 4
    prev := Pixel.free 0 1
    cache := Cache.free 0
    cause := Config.freeU8 0 10
    epos := Config.freeU64 0 5
    src := []
    dst := []
    supply := 0 }

/-- The machine after power-on (R280): both engines IDLE, every other register a draw, the default
parameters (D3, D4), no host action pending. -/
def State.reset : State :=
  { cfg := Config.defaults
    enc := EncState.powerOn
    dec := DecState.powerOn
    host := { agenda := [], seen := [] }
    draws := 1 }

end Sys2Proof.Machine
end

