-- ==== Sys2Proof/Machine/Operands.lean ====
section
/-! DEFINITION. The pure functions both engines share (40_shared_functions.md): the hash unit, the
coordinate unit, channel arithmetic, and the pixel each chunk's operands reconstruct. -/

namespace Sys2Proof.Machine

/-- HASH: `(3r + 5g + 7b + 11a) mod 64` (R140). -/
def pixelHash (px : Pixel) : Slot :=
  BitVec.ofNat 6 ((px.r.toNat * 3 + px.g.toNat * 5 + px.b.toNat * 7 + px.a.toNat * 11) % 64)

/-- COORD: the column of linear index i (R141). -/
def lin2x (W : U32) (i : Nat) : Nat := i % W.toNat

/-- COORD: the row of linear index i (R141). -/
def lin2y (W : U32) (i : Nat) : Nat := i / W.toNat

/-- COORD: the linear index of column x, row y (R142). -/
def xy2lin (W : U32) (x y : Nat) : Nat := y * W.toNat + x

/-- `wrap8(v) = v mod 256` (R13, R145). -/
def wrap8 (v : Int) : Byte := BitVec.ofInt 8 v

/-- `swrap8(v) = ((v + 128) mod 256) - 128` (R13). -/
def swrap8 (v : Int) : Int := (v + 128) % 256 - 128

/-- `delta(cur, prev)` (R146). -/
def delta (mode : DeltaMode) (cur prev : Byte) : Int :=
  match mode with
  | .plain => (cur.toNat : Int) - prev.toNat
  | .wrap => swrap8 ((cur.toNat : Int) - prev.toNat)

/-- A channel plus a signed delta, wrapping (R145). -/
def addDelta (prev : Byte) (d : Int) : Byte := wrap8 ((prev.toNat : Int) + d)

/-- The pixel a DIFF chunk reconstructs (R214). -/
def diffPixel (prev : Pixel) (dr dg db : Int) : Pixel :=
  ⟨addDelta prev.r dr, addDelta prev.g dg, addDelta prev.b db, prev.a⟩

/-- The pixel a LUMA chunk reconstructs: red and blue add the green delta (R215). -/
def lumaPixel (prev : Pixel) (dg drg dbg : Int) : Pixel :=
  ⟨addDelta prev.r (dg + drg), addDelta prev.g dg, addDelta prev.b (dg + dbg), prev.a⟩

/-- The pixel an RGB chunk reconstructs: alpha from the previous pixel (R212). -/
def rgbPixel (prev : Pixel) (r g b : Byte) : Pixel := ⟨r, g, b, prev.a⟩

/-- A `u32` as four bytes, most significant first (R71). -/
def be32 (v : U32) : List Byte :=
  [toByte (v.toNat >>> 24), toByte (v.toNat >>> 16), toByte (v.toNat >>> 8), toByte v.toNat]

/-- Four bytes, most significant first, as a `u32` (R71). -/
def ofBe32 (b3 b2 b1 b0 : Byte) : U32 :=
  BitVec.ofNat 32 (b3.toNat <<< 24 ||| b2.toNat <<< 16 ||| b1.toNat <<< 8 ||| b0.toNat)

/-- The 14-byte header (R101) with width, height, channel byte and colorspace byte. -/
def headerBytes (m : Magic) (W H : U32) (chan cs : Byte) : List Byte :=
  [m.b0, m.b1, m.b2, m.b3] ++ be32 W ++ be32 H ++ [chan, cs]

end Sys2Proof.Machine
end

