-- ==== Sys2Proof/Machine/Flags.lean ====
section
/-! DEFINITION. The core has no flag register (10_state.md R57); these are the conditions the engines
compute afresh in each step (40_shared_functions.md R144, R147, R148), and the chunk the encoder's priority
order picks from them (41_encoder.md R166). -/

namespace Sys2Proof.Machine

/-- `fitsDiff(px, prev)` (R147). -/
def fitsDiff (mode : DeltaMode) (px prev : Pixel) : Bool :=
  decide (px.a = prev.a) && inRange (-2) 1 (delta mode px.r prev.r) &&
    inRange (-2) 1 (delta mode px.g prev.g) && inRange (-2) 1 (delta mode px.b prev.b)

/-- `fitsLuma(px, prev)` (R148). -/
def fitsLuma (mode : DeltaMode) (px prev : Pixel) : Bool :=
  decide (px.a = prev.a) && inRange (-32) 31 (delta mode px.g prev.g) &&
    inRange (-8) 7 (delta mode px.r prev.r - delta mode px.g prev.g) &&
    inRange (-8) 7 (delta mode px.b prev.b - delta mode px.g prev.g)

/-- The DIFF chunk of a pixel (R174). -/
def diffChunk (mode : DeltaMode) (px prev : Pixel) : Instr :=
  .diff (delta mode px.r prev.r) (delta mode px.g prev.g) (delta mode px.b prev.b)

/-- The LUMA chunk of a pixel (R175). -/
def lumaChunk (mode : DeltaMode) (px prev : Pixel) : Instr :=
  .luma (delta mode px.g prev.g) (delta mode px.r prev.r - delta mode px.g prev.g)
    (delta mode px.b prev.b - delta mode px.g prev.g)

/-- The one chunk a differing pixel is coded as: IDX on a cache hit, else DIFF, LUMA, RGB, RGBA in this
order (R166, R173 to R177). -/
def classify (mode : DeltaMode) (hit : Bool) (px prev : Pixel) : Instr :=
  if hit then .idx (pixelHash px)
  else if fitsDiff mode px prev then diffChunk mode px prev
  else if fitsLuma mode px prev then lumaChunk mode px prev
  else if px.a = prev.a then .rgb px.r px.g px.b
  else .rgba px.r px.g px.b px.a

end Sys2Proof.Machine
end

