-- ==== Sys2Proof/Machine/Ops.lean ====
section
/-! DEFINITION. The named operations over memory and registers: canonical memory, the cache, the surface and
buffer ports (20_memory.md, 00_scope.md R15), the decoder's pixel write and shared tail (R208, R219), and
raising a FormatError (60_exceptions.md R250). -/

namespace Sys2Proof.Machine

/-- The unit at an address; none where nothing is listed (entry 11). -/
def Memory.read {α : Type} : Memory α → Nat → Option α
  | [], _ => none
  | (k, v) :: m, a => if a = k then some v else Memory.read m a

/-- Writes one unit and keeps the addresses strictly rising. -/
def Memory.write {α : Type} : Memory α → Nat → α → Memory α
  | [], a, v => [(a, v)]
  | (k, u) :: m, a, v =>
    if a < k then (a, v) :: (k, u) :: m
    else if a = k then (a, v) :: m
    else (k, u) :: Memory.write m a v

/-- The address after every listed one: the end of the memory. -/
def Memory.next {α : Type} : Memory α → Nat
  | [] => 0
  | (k, _) :: m => max (k + 1) (Memory.next m)

/-- The memory whose units, from address `base` up, are the list's. -/
def Memory.ofListFrom {α : Type} (base : Nat) : List α → Memory α
  | [] => []
  | v :: vs => (base, v) :: Memory.ofListFrom (base + 1) vs

/-- The memory whose units, from address 0 up, are the list's. -/
def Memory.ofList {α : Type} (vs : List α) : Memory α := Memory.ofListFrom 0 vs

/-- The canonical form: every address lies below all the addresses after it. -/
def Memory.wf {α : Type} : Memory α → Bool
  | [] => true
  | (k, _) :: m => m.all (fun c => decide (k < c.1)) && Memory.wf m

/-- `cache[s]` (R14). -/
def cacheRead (q : Cache) (s : Slot) : U64 := q[s.toNat]'(s.isLt)

/-- `cache[s] <- v` (R14). -/
def cacheWrite (q : Cache) (s : Slot) (v : U64) : Cache := q.set s.toNat v s.isLt

/-- The zero seed of both engines (R41, R51, C4). -/
def cacheSeed : Cache := Vector.replicate 64 0

/-- `SurfRead(x, y)` on a W x H surface (R15, R70). -/
def surfRead (W H : U32) (m : Memory Pixel) (x y : Nat) : Option Pixel :=
  if x < W.toNat ∧ y < H.toNat then Memory.read m (xy2lin W x y) else none

/-- `SurfWrite(x, y, px)` (R15); its one caller `put` has checked the position. -/
def surfWrite (W : U32) (m : Memory Pixel) (x y : Nat) (px : Pixel) : Memory Pixel :=
  Memory.write m (xy2lin W x y) px

/-- `PixRead(i) = SurfRead(lin2x(i), lin2y(i))` (R15, R78). -/
def pixRead (W H : U32) (m : Memory Pixel) (i : Nat) : Option Pixel :=
  surfRead W H m (lin2x W i) (lin2y W i)

/-- `PixWrite(i, px) = SurfWrite(lin2x(i), lin2y(i), px)` (R15). -/
def pixWrite (W : U32) (m : Memory Pixel) (i : Nat) (px : Pixel) : Memory Pixel :=
  surfWrite W m (lin2x W i) (lin2y W i) px

/-- ENC's `PixRead` on its input surface. -/
def EncState.pixRead (e : EncState) (i : Nat) : Option Pixel := Machine.pixRead e.W e.H e.src i

/-- DEC's `PixRead` on its output surface: none where nothing has been written (R53, R79). -/
def DecState.pixRead (d : DecState) (q : Nat) : Option Pixel := Machine.pixRead d.W d.H d.dst q

/-- `dec.written[q]`; 0 for q >= dec.N (R53). -/
def DecState.written (d : DecState) (q : Nat) : Bool := (d.pixRead q).isSome

/-- `BufRead(pos)` (R15). -/
def DecState.bufRead (d : DecState) (pos : Nat) : Option Byte := Memory.read d.src pos

/-- Consecutive bytes of the input buffer from a position on. -/
def DecState.bufReads (d : DecState) (pos : Nat) : Nat → Option (List Byte)
  | 0 => some []
  | k + 1 =>
    match d.bufRead pos, d.bufReads (pos + 1) k with
    | some b, some bs => some (b :: bs)
    | _, _ => none

/-- `enc.opos` once the buffer lists `listed` bytes (R42): one more than before. Where 64 bits cannot count
the bytes the spec states no value: a free one (entry 16). -/
def nextOpos (opos : U64) (listed : Nat) : U64 :=
  if listed < 2 ^ 64 then opos + 1 else Config.oposPastEnd listed

/-- `BufAppend(v)` (R15, R77, R80): the byte goes to the end of the buffer, which is position `enc.opos`
wherever 64 bits count the buffer's bytes (`Counted`, entry 16), and `enc.opos` advances. -/
def bufAppend (v : Byte) (e : EncState) : EncState :=
  let dst := Memory.write e.dst (Memory.next e.dst) v
  { e with dst := dst, opos := nextOpos e.opos dst.length }

/-- `emit(b0, b1, ...)` (R16). -/
def emit : List Byte → EncState → EncState
  | [], e => e
  | v :: vs, e => emit vs (bufAppend v e)

/-- Emits the pending run, if any, as one RUN chunk and zeroes the counter (R165, R172). -/
def flushRun (e : EncState) : EncState :=
  if e.run = 0 then e else { emit (encode (.run e.run.toNat)) e with run := 0 }

/-- The code of a cause (R258). -/
def causeCode : Cause → BitVec 8
  | .badMagic => 1
  | .shortInput => 2
  | .truncatedChunk => 3
  | .pixelOverflow => 4
  | .unwrittenRef => 5
  | .pixelUnderflow => 6

/-- Whether the header step had latched the header when the cause was raised: causes 3 to 6 (R260). -/
def latchedBy : Cause → Bool
  | .badMagic => false
  | .shortInput => false
  | .truncatedChunk => true
  | .pixelOverflow => true
  | .unwrittenRef => true
  | .pixelUnderflow => true

/-- `raise FormatError(c, e)` (R250): the cause, the position and the phase. The registers that carry no
result afterwards become free values of a fresh draw, and the surface is withdrawn (D12, U2, entry 8). -/
def raiseFormatError (c : Cause) (e : U64) (s : State) : State :=
  { s with
    dec :=
      { s.dec with
        phase := .error
        cause := causeCode c
        epos := e
        pos := Config.freeU64 s.draws 2
        p := Config.freeU64 s.draws 4
        prev := Pixel.free s.draws 1
        cache := Cache.free s.draws
        dst := []
        W := if latchedBy c then s.dec.W else Config.freeU32 s.draws 2
        H := if latchedBy c then s.dec.H else Config.freeU32 s.draws 3
        chan := if latchedBy c then s.dec.chan else Config.freeU8 s.draws 8
        cs := if latchedBy c then s.dec.cs else Config.freeU8 s.draws 9 }
    draws := s.draws + 1 }

/-- `need(k)` (R206, R253): the k-byte chunk at `dec.pos` lies wholly before the end-marker region. -/
def DecState.fits (d : DecState) (k : Nat) : Bool := decide (d.pos.toNat + k + 8 ≤ d.len.toNat)

/-- `need(k)` as an action: TRUNCATED_CHUNK where the chunk does not fit (R253). -/
def need (k : Nat) (d : DecState) : Except Cause DecState :=
  if d.fits k then .ok d else .error .truncatedChunk

/-- `put(px)` (R219): PIXEL_OVERFLOW past the last pixel, else write position `dec.p` and advance it. -/
def put (px : Pixel) (d : DecState) : Except Cause DecState :=
  if d.N ≤ d.p.toNat then .error .pixelOverflow
  else .ok { d with dst := pixWrite d.W d.dst d.p.toNat px, p := d.p + 1 }

/-- `repeat n times: put(px)` (R216). -/
def replay : Nat → Pixel → DecState → Except Cause DecState
  | 0, _, d => .ok d
  | n + 1, px, d =>
    match put px d with
    | .error c => .error c
    | .ok d' => replay n px d'

/-- The shared tail (R208, R209): cache slot, pixel write, previous pixel, in this order. -/
def tail (px : Pixel) (d : DecState) : Except Cause DecState :=
  match put px { d with cache := cacheWrite d.cache (pixelHash px) d.p } with
  | .error c => .error c
  | .ok d' => .ok { d' with prev := px }

/-- The end of a chunk step: FINISH once the chunk region is consumed (R206). -/
def settlePhase (d : DecState) : DecState :=
  if d.len.toNat ≤ d.pos.toNat + 8 then { d with phase := .finish } else d

/-- What every chunk does with its pixel: advance `dec.pos` by the chunk's length, the tail, and the phase
(R206, R208). -/
def finishChunk (k : Nat) (px : Pixel) (d : DecState) : Except Cause DecState :=
  match tail px { d with pos := d.pos + BitVec.ofNat 64 k } with
  | .error c => .error c
  | .ok d' => .ok (settlePhase d')

/-- A chunk's effect as a step: its first error is raised with the chunk's start as the position (R250,
R258, R259). -/
def closeChunk (r : Except Cause DecState) (s : State) : Host.Outcome State Fault Refusal :=
  match r with
  | .ok d => .next { s with dec := d }
  | .error c => .next (raiseFormatError c s.dec.pos s)

end Sys2Proof.Machine
end

