-- ==== Sys2Proof/Machine/Decoder.lean ====
section
/-! DEFINITION. The decoder's START, header step and finish step (42_decoder.md R200 to R205, R210). -/

namespace Sys2Proof.Machine

/-- DECODE START (R200). No register keeps a value of an earlier operation (R261, R283). What R200 does not
write is a draw from here to the header step, and `dec.epos` until an error (R62, U3); no output surface is
bound yet. That the unwritten registers are draws is the model's choice (DESIGN CHOICE, entry 9). -/
def beginDecode (bytes : List Byte) (supply : Nat) (s : State) : State :=
  { s with
    dec :=
      { phase := .header
        pos := 0
        len := BitVec.ofNat 64 bytes.length
        W := Config.freeU32 s.draws 2
        H := Config.freeU32 s.draws 3
        chan := Config.freeU8 s.draws 8
        cs := Config.freeU8 s.draws 9
        p := Config.freeU64 s.draws 4
        prev := Pixel.free s.draws 1
        cache := Cache.free s.draws
        cause := 0
        epos := Config.freeU64 s.draws 5
        src := Memory.ofList bytes
        dst := []
        supply := supply }
    draws := s.draws + 1 }

/-- What the header step latches and seeds once its checks have passed (R203, R205): the output surface it
binds holds no value anywhere, so every `dec.written` bit is clear. -/
def latchHeader (W H : U32) (chan cs : Byte) (d : DecState) : DecState :=
  { d with
    W := W
    H := H
    chan := chan
    cs := cs
    dst := []
    prev := Config.prevInit
    cache := cacheSeed
    p := 0
    pos := BitVec.ofNat 64 Config.hdrLen
    phase := if Config.hdrLen + Config.endLen < d.len.toNat then .chunks else .finish }

/-- The header step past the magic check: SHORT_INPUT (R202), then latch (R203); refused where the host
cannot supply the surface (R204, D24). -/
def checkedHeader (s : State) : Host.Outcome State Fault Refusal :=
  if s.dec.len.toNat < 22 then .next (raiseFormatError .shortInput s.dec.len s)
  else
    match s.dec.bufReads 4 10 with
    | some [w3, w2, w1, w0, h3, h2, h1, h0, chan, cs] =>
      let d := latchHeader (ofBe32 w3 w2 w1 w0) (ofBe32 h3 h2 h1 h0) chan cs s.dec
      if d.supply < d.N then .refused .noOutputSurface else .next { s with dec := d }
    | _ => .fault .bufferRead

/-- The header step (R203): the magic check first (R201). -/
def decHeaderStep (s : State) : Host.Outcome State Fault Refusal :=
  if s.dec.len.toNat < 4 then .next (raiseFormatError .badMagic 0 s)
  else
    match s.dec.bufReads 0 4 with
    | some bs =>
      if bs = [s.cfg.magic.b0, s.cfg.magic.b1, s.cfg.magic.b2, s.cfg.magic.b3] then checkedHeader s
      else .next (raiseFormatError .badMagic 0 s)
    | none => .fault .bufferRead

/-- The finish step (R210). -/
def decFinishStep (s : State) : Host.Outcome State Fault Refusal :=
  if s.dec.p.toNat = s.dec.N then .next { s with dec := { s.dec with phase := .done } }
  else .next (raiseFormatError .pixelUnderflow s.dec.pos s)

end Sys2Proof.Machine
end

