-- ==== Sys2Proof/Machine/Delta.lean ====
section
/-! DEFINITION. The delta chunks DIFF and LUMA (42_decoder.md R214, R215). -/

namespace Sys2Proof.Machine

/-- DIFF (R214). -/
def execDiff (dr dg db : Int) (s : State) : Host.Outcome State Fault Refusal :=
  closeChunk (finishChunk 1 (diffPixel s.dec.prev dr dg db) s.dec) s

/-- LUMA (R215). -/
def execLuma (dg drg dbg : Int) (s : State) : Host.Outcome State Fault Refusal :=
  closeChunk ((need 2 s.dec).bind fun d => finishChunk 2 (lumaPixel d.prev dg drg dbg) d) s

end Sys2Proof.Machine
end

