-- ==== Sys2Proof/Machine/Index.lean ====
section
/-! DEFINITION. The cache-index chunk IDX (42_decoder.md R213). -/

namespace Sys2Proof.Machine

/-- The read-back of an output position, UNWRITTEN_REF where nothing is written (R213, R255). -/
def readBack (q : U64) (d : DecState) : Except Cause Pixel :=
  match d.pixRead q.toNat with
  | none => .error .unwrittenRef
  | some px => .ok px

/-- IDX (R213): the pixel at the position slot s remembers. -/
def execIdx (slot : Slot) (s : State) : Host.Outcome State Fault Refusal :=
  closeChunk ((readBack (cacheRead s.dec.cache slot) s.dec).bind fun px => finishChunk 1 px s.dec) s

end Sys2Proof.Machine
end

