-- ==== Sys2Proof/Machine/Literal.lean ====
section
/-! DEFINITION. The literal chunks RGB and RGBA (42_decoder.md R211, R212). -/

namespace Sys2Proof.Machine

/-- RGBA (R211): all four channels from the chunk. -/
def execRgba (r g b a : Byte) (s : State) : Host.Outcome State Fault Refusal :=
  closeChunk ((need 5 s.dec).bind fun d => finishChunk 5 ⟨r, g, b, a⟩ d) s

/-- RGB (R212): alpha is the previous pixel's. -/
def execRgb (r g b : Byte) (s : State) : Host.Outcome State Fault Refusal :=
  closeChunk ((need 4 s.dec).bind fun d => finishChunk 4 (rgbPixel d.prev r g b) d) s

end Sys2Proof.Machine
end

