-- ==== Sys2Proof/Machine/RunLength.lean ====
section
/-! DEFINITION. The run-length chunk RUN (42_decoder.md R216). -/

namespace Sys2Proof.Machine

/-- RUN (R216): n - 1 replays of the previous pixel with no cache write, then the tail writes the last
copy and the cache. -/
def execRun (n : Nat) (s : State) : Host.Outcome State Fault Refusal :=
  closeChunk ((replay (n - 1) s.dec.prev s.dec).bind fun d => finishChunk 1 d.prev d) s

end Sys2Proof.Machine
end

