-- ==== Sys2Proof/Machine/ChunkStep.lean ====
section
/-! DEFINITION. The decoder's chunk step (42_decoder.md R206): fetch, decode, execute; and one step of DEC. -/

namespace Sys2Proof.Machine

/-- Whether the chunk starting with b0 fits before the end-marker region; only a multi-byte chunk is
checked (R206, R253). -/
def DecState.operandsFit (d : DecState) (b0 : Byte) : Bool :=
  decide (chunkLen b0 = 1) || d.fits (chunkLen b0)

/-- The chunk step (R206). A truncated multi-byte chunk is raised before any operand byte is read (R253);
a dispatch with no arm is a refusal (R257), which R218 says cannot be reached. -/
def decChunkStep (s : State) : Host.Outcome State Fault Refusal :=
  match s.dec.bufRead s.dec.pos.toNat with
  | none => .fault .bufferRead
  | some b0 =>
    if s.dec.operandsFit b0 then
      match s.dec.bufReads s.dec.pos.toNat (chunkLen b0) with
      | none => .fault .bufferRead
      | some bs =>
        match decode bs with
        | .ok (i, _) => exec i s
        | .error _ => .refused .dispatchDefect
    else .next (raiseFormatError .truncatedChunk s.dec.pos s)

/-- One step of DEC; in IDLE, DONE and ERROR it takes none and stays (R261, U10, U11, entry 7). -/
def decStep (s : State) : Host.Outcome State Fault Refusal :=
  match s.dec.phase with
  | .idle => .next s
  | .header => decHeaderStep s
  | .chunks => decChunkStep s
  | .finish => decFinishStep s
  | .done => .next s
  | .error => .next s

/-- Whether DEC has a step to take. -/
def DecState.active (d : DecState) : Bool :=
  match d.phase with
  | .idle => false
  | .header => true
  | .chunks => true
  | .finish => true
  | .done => false
  | .error => false

end Sys2Proof.Machine
end

