-- ==== Sys2Proof/Machine/Encoder.lean ====
section
/-! DEFINITION. The encoder engine (41_encoder.md R160 to R177): START, header step, pixel step, finish
step. The chunk it emits for a pixel is an `Instr`, and its bytes are that instruction's encoding. -/

namespace Sys2Proof.Machine

/-- ENCODE START (R160). -/
def beginEncode (W H : U32) (pixels : List Pixel) (s : State) : State :=
  { s with
    enc :=
      { phase := .header
        W := W
        H := H
        i := 0
        prev := Config.prevInit
        run := 0
        cache := cacheSeed
        opos := 0
        src := Memory.ofList pixels
        dst := [] } }

/-- The header step (R161). -/
def encHeader (m : Magic) (e : EncState) : EncState :=
  { emit (headerBytes m e.W e.H Config.channelsOut Config.colorspaceOut) e with
    phase := if e.N = 0 then .finish else .pixels }

/-- The run path (R163) with the cap (R164). -/
def countRun (e : EncState) : EncState :=
  if e.run + 1 = 62 then { emit (encode (.run Config.runMax)) e with run := 0 }
  else { e with run := e.run + 1 }

/-- Whether the cache test of R173 hits, by the slot's value before this step's own write (R285): never at
pixel 0 (R171); none where the surface does not hold the referenced pixel. -/
def cacheHit (px : Pixel) (e : EncState) : Option Bool :=
  if e.i = 0 then some false
  else (e.pixRead (cacheRead e.cache (pixelHash px)).toNat).map fun q => decide (q = px)

/-- A differing pixel: flush the pending run (R165), then emit the one chunk of R166, by the old previous
pixel (R286). -/
def codePixel (mode : DeltaMode) (hit : Bool) (px : Pixel) (e : EncState) : EncState :=
  emit (encode (classify mode hit px e.prev)) (flushRun e)

/-- The end of every pixel step (R167, R168). -/
def closePixel (px : Pixel) (e : EncState) : EncState :=
  { e with
    cache := cacheWrite e.cache (pixelHash px) e.i
    prev := px
    i := e.i + 1
    phase := if (e.i + 1).toNat = e.N then .finish else e.phase }

/-- The pixel step's effect on the engine, given the pixel read (R162); none where the back reference
reads a position the surface does not hold. -/
def pixelEffect (mode : DeltaMode) (px : Pixel) (e : EncState) : Option EncState :=
  if px = e.prev then some (closePixel px (countRun e))
  else (cacheHit px e).map fun hit => closePixel px (codePixel mode hit px e)

/-- The pixel step (R162). -/
def encPixelStep (s : State) : Host.Outcome State Fault Refusal :=
  match (s.enc.pixRead s.enc.i.toNat).bind fun px => pixelEffect s.cfg.deltaMode px s.enc with
  | some e => .next { s with enc := e }
  | none => .fault .surfaceRead

/-- The finish step (R169). -/
def encFinish (e : EncState) : EncState :=
  { emit Config.endMarker (flushRun e) with phase := .done }

/-- One step of ENC; in IDLE and DONE it takes none and stays (R170, U10, entry 7). -/
def encStep (s : State) : Host.Outcome State Fault Refusal :=
  match s.enc.phase with
  | .idle => .next s
  | .header => .next { s with enc := encHeader s.cfg.magic s.enc }
  | .pixels => encPixelStep s
  | .finish => .next { s with enc := encFinish s.enc }
  | .done => .next s

/-- Whether ENC has a step to take. -/
def EncState.active (e : EncState) : Bool :=
  match e.phase with
  | .idle => false
  | .header => true
  | .pixels => true
  | .finish => true
  | .done => false

end Sys2Proof.Machine
end

