-- ==== Sys2Proof/Machine/HostPort.lean ====
section
/-! DEFINITION. The host port (10_state.md R32, R56; 60_exceptions.md R269; 70_reset_and_hazards.md R284,
R292): what each host action does, who moves next, and a program placed for the next step. -/

namespace Sys2Proof.Machine

/-- The host has read a view. -/
def sawView (v : HostView) (s : State) : State :=
  { s with host := { s.host with seen := s.host.seen ++ [v] } }

/-- ENCODE START is enabled in IDLE and DONE (R160, D25). -/
def EncState.startable (e : EncState) : Bool :=
  match e.phase with
  | .idle => true
  | .header => false
  | .pixels => false
  | .finish => false
  | .done => true

/-- DECODE START is enabled in IDLE, DONE and ERROR (R200, D25). -/
def DecState.startable (d : DecState) : Bool :=
  match d.phase with
  | .idle => true
  | .header => false
  | .chunks => false
  | .finish => false
  | .done => true
  | .error => true

/-- ENCODE START by the host: refused while an operation runs (R269), for a surface that is not whole
(R284), and without room for 22 + 5 N bytes (R80, D15). -/
def hostStartEncode (W H : U32) (pixels : List Pixel) (room : Nat) (s : State) :
    Host.Outcome State Fault Refusal :=
  if s.enc.startable then
    if pixels.length = W.toNat * H.toNat then
      if 22 + 5 * (W.toNat * H.toNat) ≤ room then .next (beginEncode W H pixels s)
      else .refused .noOutputRoom
    else .refused .surfaceNotWhole
  else .refused .startWhileRunning

/-- DECODE START by the host: refused while an operation runs (R269) and for a buffer whose length is no
u64 (entry 15). -/
def hostStartDecode (bytes : List Byte) (supply : Nat) (s : State) :
    Host.Outcome State Fault Refusal :=
  if s.dec.startable then
    if bytes.length < 2 ^ 64 then .next (beginDecode bytes supply s)
    else .refused .bufferTooLong
  else .refused .startWhileRunning

/-- The encoder's status registers (R56). -/
def EncState.status (e : EncState) : HostView := .encStatus e.phase e.opos

/-- The decoder's status registers (R56). -/
def DecState.status (d : DecState) : HostView :=
  .decStatus d.phase d.cause d.epos d.W d.H d.chan d.cs

/-- The result of ENCODE, in DONE only (R170, R292). -/
def hostReadEncoded (s : State) : Host.Outcome State Fault Refusal :=
  if s.enc.phase = .done then .next (sawView (.encoded s.enc.opos s.enc.dst) s)
  else .refused .resultBeforeDone

/-- The result of DECODE, in DONE only (R210, R292). -/
def hostReadDecoded (s : State) : Host.Outcome State Fault Refusal :=
  if s.dec.phase = .done then .next (sawView (.decoded s.dec.W s.dec.H s.dec.dst) s)
  else .refused .resultBeforeDone

/-- One host action. -/
def hostStep (a : HostAction) (s : State) : Host.Outcome State Fault Refusal :=
  match a with
  | .startEncode W H pixels room => hostStartEncode W H pixels room s
  | .startDecode bytes supply => hostStartDecode bytes supply s
  | .readEncStatus => .next (sawView s.enc.status s)
  | .readDecStatus => .next (sawView s.dec.status s)
  | .readEncoded => hostReadEncoded s
  | .readDecoded => hostReadDecoded s

/-- Who moves next (entry 6): the oldest move of the agenda; with none, DEC while it runs, else ENC while it
runs, else nobody. -/
def State.nextMove (s : State) : Option Move :=
  match s.host.agenda with
  | m :: _ => some m
  | [] => if s.dec.active then some .dec else if s.enc.active then some .enc else none

/-- The state once its next move has been taken from the agenda. -/
def State.takeMove (s : State) : State :=
  { s with host := { s.host with agenda := s.host.agenda.tail } }

/-- One move. -/
def moveStep (m : Move) (s : State) : Host.Outcome State Fault Refusal :=
  match m with
  | .host a => hostStep a s
  | .enc => encStep s
  | .dec => decStep s

/-- A buffer whose only chunk bytes are `bs` (a 62 x 1 image), and the state the decoder's START and
header step leave for it (entry 17). -/
def loadChunk (bs : List Byte) (s : State) : State :=
  let buf := headerBytes s.cfg.magic 62 1 Config.channelsOut Config.colorspaceOut ++ bs ++ Config.endMarker
  let s' := beginDecode buf 62 s
  { s' with dec := latchHeader 62 1 Config.channelsOut Config.colorspaceOut s'.dec }

/-- The listed bytes below an address. -/
def Memory.below {α : Type} (m : Memory α) (a : Nat) : Memory α := m.filter fun c => decide (c.1 < a)

/-- The running decoder's buffer with the chunk bytes `bs` at `dec.pos` and an end marker after them. -/
def patchChunk (bs : List Byte) (s : State) : State :=
  let at0 := s.dec.pos.toNat
  { s with
    dec :=
      { s.dec with
        src := Memory.below s.dec.src at0 ++ Memory.ofListFrom at0 (bs ++ Config.endMarker)
        len := BitVec.ofNat 64 (at0 + bs.length + Config.endLen) } }

/-- Places chunk bytes where the decoder takes its next chunk: in its buffer while it is scanning chunks,
else in a buffer of their own (entry 17). -/
def placeChunk (bs : List Byte) (s : State) : State :=
  match s.dec.phase with
  | .idle => loadChunk bs s
  | .header => loadChunk bs s
  | .chunks => patchChunk bs s
  | .finish => loadChunk bs s
  | .done => loadChunk bs s
  | .error => loadChunk bs s

end Sys2Proof.Machine
end

