-- ==== Sys2Proof/Machine/Step.lean ====
section
/-! DEFINITION. One step of the machine (10_state.md R33, 00_scope.md R16), and an instruction placed for
the next step. -/

namespace Sys2Proof.Machine

/-- One step: the next move of whoever moves next; with nobody to move, the machine stays (entry 7). -/
def step (s : State) : Host.Outcome State Fault Refusal :=
  match s.nextMove with
  | none => .next s
  | some m => moveStep m s.takeMove

/-- The instruction of a table word placed so that the very next step fetches and runs it (entry 17). -/
def State.withFetchWord (s : State) (nbits w : Nat) : State :=
  let s' := placeChunk (tableBytes nbits w) s
  { s' with host := { s'.host with agenda := .dec :: s'.host.agenda } }

end Sys2Proof.Machine
end

