-- ==== Sys2Proof/Safety.lean ====
section
/-! DEFINITION. What counts as a safe state, in the terms the statements use: canonical memories, the engine
invariants of 10_state.md R44 and R55 with the facts they rest on, and the runs the statements speak of. -/

namespace Sys2Proof.Machine

/-- A memory holds a unit at exactly the addresses below n. -/
def Memory.spans {α : Type} (m : Memory α) (n : Nat) : Prop :=
  ∀ a, (Memory.read m a).isSome = true ↔ a < n

/-- The units of a memory in address order. -/
def Memory.units {α : Type} (m : Memory α) : List α := m.map Prod.snd

/-- All four memories are in canonical form. -/
def State.memWf (s : State) : Bool :=
  Memory.wf s.enc.src && Memory.wf s.enc.dst && Memory.wf s.dec.src && Memory.wf s.dec.dst

/-- The output buffer lists exactly the positions below its length (R80), and `enc.opos` is that length
(R42), as long as 64 bits can count it. -/
def Counted (e : EncState) : Prop :=
  Memory.spans e.dst e.dst.length ∧ (e.dst.length < 2 ^ 64 → e.opos.toNat = e.dst.length)

/-- R44 (d), with "written since START" said by the pixels themselves: slot s holds the last index below
`enc.i` whose pixel hashes to s, or 0 where there is none. -/
def EncState.slotOk (e : EncState) (s : Slot) : Prop :=
  ((cacheRead e.cache s).toNat < e.i.toNat ∧
      (e.pixRead (cacheRead e.cache s).toNat).map pixelHash = some s ∧
      ∀ k, (cacheRead e.cache s).toNat < k → k < e.i.toNat → (e.pixRead k).map pixelHash ≠ some s) ∨
    ((cacheRead e.cache s).toNat = 0 ∧ ∀ k, k < e.i.toNat → (e.pixRead k).map pixelHash ≠ some s)

/-- R44: the encoder's invariants while it scans (PIXELS, FINISH). -/
structure EncScanning (e : EncState) : Prop where
  /-- Every pixel of the surface can be read (R284). -/
  whole : Memory.spans e.src e.N
  /-- `enc.i` lies in `0..enc.N` (R38). -/
  inSurface : e.i.toNat ≤ e.N
  /-- (a) -/
  runCap : e.run.toNat ≤ 61
  /-- (b) -/
  prevIsLast : if e.i = 0 then e.prev = Config.prevInit else e.pixRead (e.i.toNat - 1) = some e.prev
  /-- (c) -/
  slots : ∀ s, (cacheRead e.cache s).toNat < max e.i.toNat 1
  /-- (d) -/
  slotsLast : ∀ s, e.slotOk s
  /-- (e), the pixels of the run. -/
  runPixels : e.run.toNat ≤ e.i.toNat ∧
    ∀ k, e.i.toNat - e.run.toNat ≤ k → k < e.i.toNat → e.pixRead k = some e.prev
  /-- (e), the pixel before the run. -/
  runBefore : e.run ≠ 0 →
    if e.run.toNat = e.i.toNat then e.prev = Config.prevInit
    else e.pixRead (e.i.toNat - e.run.toNat - 1) = some e.prev
  /-- The appended bytes stand at positions 0 up, and `enc.opos` counts them (R42, R80). -/
  counted : Counted e
  /-- The bytes appended so far, with the byte a pending run owes, are at most 14 + 5 per pixel (R178). -/
  bounded : 14 ≤ e.dst.length ∧ e.dst.length + (if e.run = 0 then 0 else 1) ≤ 14 + 5 * e.i.toNat

/-- The encoder's invariant in every phase. -/
def EncInv (e : EncState) : Prop :=
  match e.phase with
  | .idle => True
  | .header =>
    Memory.spans e.src e.N ∧ e.i = 0 ∧ e.prev = Config.prevInit ∧ e.run = 0 ∧ e.cache = cacheSeed ∧
      e.opos = 0 ∧ e.dst = []
  | .pixels => EncScanning e ∧ e.i.toNat < e.N
  | .finish => EncScanning e ∧ e.i.toNat = e.N
  | .done =>
    22 ≤ e.dst.length ∧ e.dst.length ≤ 22 + 5 * e.N ∧ Counted e

/-- R55: the decoder's invariants while it scans (CHUNKS, FINISH). -/
structure DecScanning (d : DecState) : Prop where
  /-- The buffer holds exactly `dec.len` bytes (R46, R70). -/
  whole : Memory.spans d.src d.len.toNat
  /-- (a) -/
  posLow : 14 ≤ d.pos.toNat
  /-- (a) -/
  posHigh : d.pos.toNat + 8 ≤ d.len.toNat
  /-- (b) -/
  writtenBelow : ∀ q, d.written q = true ↔ q < d.p.toNat
  /-- (c) -/
  prevIsLast : if d.p = 0 then d.prev = Config.prevInit else d.pixRead (d.p.toNat - 1) = some d.prev
  /-- (d) -/
  slots : ∀ s, (cacheRead d.cache s).toNat < max d.p.toNat 1
  /-- No position past the surface is written (R219). -/
  inSurface : d.p.toNat ≤ d.N
  /-- No error has been raised (R52). -/
  noCause : d.cause = 0

/-- The decoder's invariant in every phase. -/
def DecInv (d : DecState) : Prop :=
  match d.phase with
  | .idle => True
  | .header => Memory.spans d.src d.len.toNat ∧ d.pos = 0 ∧ d.cause = 0
  | .chunks => DecScanning d ∧ d.pos.toNat + 8 < d.len.toNat
  | .finish => DecScanning d ∧ d.pos.toNat + 8 = d.len.toNat
  | .done => (∀ q, d.written q = true ↔ q < d.N) ∧ d.p.toNat = d.N ∧ d.cause = 0
  | .error => ∃ c, d.cause = causeCode c

/-- The invariant of the whole machine. -/
def State.Inv (s : State) : Prop := s.memWf = true ∧ EncInv s.enc ∧ DecInv s.dec

/-- A step's outcome is no fault: it answers a next state or refuses a host action. -/
def noFault (o : Host.Outcome State Fault Refusal) : Bool :=
  match o with
  | .next _ => true
  | .fault _ => false
  | .refused _ => true

/-- The state with another agenda. -/
def State.withAgenda (s : State) (ms : List Move) : State := { s with host := { s.host with agenda := ms } }

/-- The state with another `DELTA_MODE`. -/
def State.withMode (m : DeltaMode) (s : State) : State := { s with cfg := { s.cfg with deltaMode := m } }

/-- A next state changed by f; a fault or a refusal unchanged. -/
def mapNext (f : State → State) (o : Host.Outcome State Fault Refusal) : Host.Outcome State Fault Refusal :=
  match o with
  | .next s => .next (f s)
  | .fault r => .fault r
  | .refused r => .refused r

/-- `k` steps of ENC alone. -/
def encSteps : Nat → State → Host.Outcome State Fault Refusal
  | 0, s => .next s
  | k + 1, s =>
    match encStep s with
    | .next s' => encSteps k s'
    | .fault r => .fault r
    | .refused r => .refused r

/-- `k` steps of DEC alone. -/
def decSteps : Nat → State → Host.Outcome State Fault Refusal
  | 0, s => .next s
  | k + 1, s =>
    match decStep s with
    | .next s' => decSteps k s'
    | .fault r => .fault r
    | .refused r => .refused r

/-- A state an error has been raised in, with the code and the position the host reads (R250, R258). -/
def Raised (t : State) (code : BitVec 8) (e : U64) : Prop :=
  t.dec.phase = .error ∧ t.dec.cause = code ∧ t.dec.epos = e

/-- How many pixels a chunk writes (R208, R216). -/
def pixelCount : Instr → Nat
  | .idx _ => 1
  | .diff _ _ _ => 1
  | .luma _ _ _ => 1
  | .run n => n
  | .rgb _ _ _ => 1
  | .rgba _ _ _ _ => 1

/-- The state a one-pixel chunk of k bytes with pixel px leaves, written out (R206, R208, R209, R219). -/
def afterChunk (k : Nat) (px : Pixel) (s : State) : State :=
  { s with
    dec :=
      { s.dec with
        pos := s.dec.pos + BitVec.ofNat 64 k
        cache := cacheWrite s.dec.cache (pixelHash px) s.dec.p
        dst := Memory.write s.dec.dst s.dec.p.toNat px
        p := s.dec.p + 1
        prev := px
        phase :=
          if s.dec.len.toNat ≤ (s.dec.pos + BitVec.ofNat 64 k).toNat + 8 then .finish else s.dec.phase } }

/-- The encoder once it has appended the bytes bs and taken pixel px, with the given run (R162, R167, R168). -/
def afterPixel (bs : List Byte) (run : BitVec 6) (px : Pixel) (s : State) : State :=
  { s with
    enc :=
      { emit bs s.enc with
        run := run
        cache := cacheWrite s.enc.cache (pixelHash px) s.enc.i
        prev := px
        i := s.enc.i + 1
        phase := if (s.enc.i + 1).toNat = s.enc.N then .finish else s.enc.phase } }

/-- The bytes a pending run owes before a differing pixel's chunk (R165). -/
def owedRun (e : EncState) : List Byte := if e.run = 0 then [] else [runByte e.run.toNat]

end Sys2Proof.Machine
end

