-- ==== Sys2Proof/Certificates/Slice0/Obligations.lean ====
section
/-! DEFINITION. The statements for the provers. -/

open Sys2Proof Sys2Proof.Machine

/-! ### Encoding -/

/-- R121 to R124: decoding the bytes of a well-formed chunk gives it back, whatever follows it. -/
def Obligations.DecodeOfEncodeIsIdentity : Prop :=
  ∀ (i : Instr) (rest : List Byte), i.wf = true → decode (encode i ++ rest) = .ok (i, rest)

/-- R118, R120 to R125: whatever decodes is a well-formed chunk whose bytes are those read. -/
def Obligations.EncodeOfDecodeIsIdentity : Prop :=
  ∀ (bs rest : List Byte) (i : Instr), decode bs = .ok (i, rest) → i.wf = true ∧ encode i ++ rest = bs

/-- R110, R118, R119: the range of the first byte selects the kind, and the six ranges are all of 0..255. -/
def Obligations.FirstByteSelectsKind : Prop :=
  ∀ (b0 : Byte) (bs rest : List Byte) (i : Instr), decode (b0 :: bs) = .ok (i, rest) →
    (b0.toNat ≤ 0x3F ∧ i = .idx (BitVec.ofNat 6 b0.toNat)) ∨
    (0x40 ≤ b0.toNat ∧ b0.toNat ≤ 0x7F ∧ ∃ dr dg db, i = .diff dr dg db) ∨
    (0x80 ≤ b0.toNat ∧ b0.toNat ≤ 0xBF ∧ ∃ dg drg dbg, i = .luma dg drg dbg) ∨
    (0xC0 ≤ b0.toNat ∧ b0.toNat ≤ 0xFD ∧ i = .run (b0.toNat - 0xC0 + 1)) ∨
    (b0 = 0xFE ∧ ∃ r g b, i = .rgb r g b) ∨
    (b0 = 0xFF ∧ ∃ r g b a, i = .rgba r g b a)

/-- R117: the length is a function of the first byte alone, and the decoder consumes exactly that many bytes;
it answers a chunk whenever they are there (R125) and rejects by name when they are not. -/
def Obligations.LengthFollowsFirstByte : Prop :=
  ∀ (b0 : Byte) (bs : List Byte),
    (b0 = 0xFF → chunkLen b0 = 5) ∧ (b0 = 0xFE → chunkLen b0 = 4) ∧
    (bits b0 7 6 = 2 → chunkLen b0 = 2) ∧
    (b0 ≠ 0xFF → b0 ≠ 0xFE → bits b0 7 6 ≠ 2 → chunkLen b0 = 1) ∧
    (chunkLen b0 ≤ bs.length + 1 →
      ∃ i, decode (b0 :: bs) = .ok (i, bs.drop (chunkLen b0 - 1)) ∧ i.length = chunkLen b0) ∧
    (bs.length + 1 < chunkLen b0 → ∃ m, decode (b0 :: bs) = .error (.truncated m))

/-- Words written out from R111 to R116 decode to the chunks they stand for (V16, V17, V20, V23). -/
def Obligations.WrittenOutWordsDecode : Prop :=
  decode [0b00110101] = .ok (.idx 53, []) ∧
  decode [0b01110100] = .ok (.diff 1 (-1) (-2), []) ∧
  decode [0b10111001, 0b00111101] = .ok (.luma 25 (-5) 5, []) ∧
  decode [0b11000010] = .ok (.run 3, []) ∧
  decode [0b11111101, 0] = .ok (.run 62, [0]) ∧
  decode [0xFE, 10, 20, 30] = .ok (.rgb 10 20 30, []) ∧
  decode [0xFF, 1, 2, 3, 4] = .ok (.rgba 1 2 3 4, [])

/-- R149: `runByte(n)` for 1 <= n <= 62 is the byte 0xC0 + (n - 1), in 0xC0..0xFD. -/
def Obligations.RunByteRange : Prop :=
  ∀ n : Nat, 1 ≤ n → n ≤ 62 →
    (runByte n).toNat = 0xC0 + (n - 1) ∧ 0xC0 ≤ (runByte n).toNat ∧ (runByte n).toNat ≤ 0xFD

/-! ### The shared units -/

/-- R151: the hash depends only on bits 5:0 of each channel; distinct pixels may share a slot; a cache hit
compares the whole pixel, so a collision never makes a wrong hit. -/
def Obligations.HashUsesLowSixBits : Prop :=
  (∀ px : Pixel, (pixelHash px).toNat =
    (3 * (px.r.toNat % 64) + 5 * (px.g.toNat % 64) + 7 * (px.b.toNat % 64) + 11 * (px.a.toNat % 64)) % 64) ∧
  (∃ p q : Pixel, p ≠ q ∧ pixelHash p = pixelHash q) ∧
  (∀ (px : Pixel) (e : EncState), cacheHit px e = some true →
    e.pixRead (cacheRead e.cache (pixelHash px)).toNat = some px)

/-- R143: COORD is a bijection between `0 .. W*H-1` and `[0, W) x [0, H)`, and increasing linear index is
row-major order. -/
def Obligations.CoordinatesAreABijection : Prop :=
  ∀ W H : U32,
    (∀ i, i < W.toNat * H.toNat →
      lin2x W i < W.toNat ∧ lin2y W i < H.toNat ∧ xy2lin W (lin2x W i) (lin2y W i) = i) ∧
    (∀ x y, x < W.toNat → y < H.toNat →
      xy2lin W x y < W.toNat * H.toNat ∧ lin2x W (xy2lin W x y) = x ∧ lin2y W (xy2lin W x y) = y) ∧
    (∀ x y x' y', x < W.toNat → x' < W.toNat →
      (xy2lin W x y < xy2lin W x' y' ↔ y < y' ∨ (y = y' ∧ x < x')))

/-- R145, R146: in both modes the delta lies in its range and added to the old channel gives the new one. -/
def Obligations.DeltaReconstructsChannel : Prop :=
  ∀ cur prev : Byte,
    (∀ mode, addDelta prev (delta mode cur prev) = cur) ∧
    -255 ≤ delta .plain cur prev ∧ delta .plain cur prev ≤ 255 ∧
    -128 ≤ delta .wrap cur prev ∧ delta .wrap cur prev ≤ 127

/-- R147, R148, R184: the chunk the encoder picks is well-formed, and DIFF fits imply LUMA fits. -/
def Obligations.ClassifiedChunkIsWellFormed : Prop :=
  ∀ (mode : DeltaMode) (hit : Bool) (px prev : Pixel),
    (classify mode hit px prev).wf = true ∧
    (fitsDiff mode px prev = true → fitsLuma mode px prev = true)

/-- R166, R212 to R215, R221: for a pixel that is no cache hit, the chunk picked reconstructs the pixel from
the same previous pixel, in both modes; and no chunk picked is a RUN. -/
def Obligations.ClassifiedChunkReconstructsPixel : Prop :=
  ∀ (mode : DeltaMode) (px prev : Pixel),
    match classify mode false px prev with
    | .idx _ => False
    | .diff dr dg db => diffPixel prev dr dg db = px
    | .luma dg drg dbg => lumaPixel prev dg drg dbg = px
    | .run _ => False
    | .rgb r g b => rgbPixel prev r g b = px ∧ px.a = prev.a
    | .rgba r g b a => (⟨r, g, b, a⟩ : Pixel) = px ∧ px.a ≠ prev.a

/-! ### The six chunks -/

/-- R211 with R206, R208: RGBA writes (r, g, b, a); truncated, it raises before anything else. -/
def Obligations.RgbaWritesItsPixel : Prop :=
  ∀ (r g b a : Byte) (rest : List Byte) (s : State),
    decode (0xFF :: r :: g :: b :: a :: rest) = .ok (.rgba r g b a, rest) ∧
    (s.dec.pos.toNat + 5 + 8 ≤ s.dec.len.toNat → s.dec.p.toNat < s.dec.N →
      exec (.rgba r g b a) s = .next (afterChunk 5 ⟨r, g, b, a⟩ s)) ∧
    (s.dec.len.toNat < s.dec.pos.toNat + 5 + 8 →
      exec (.rgba r g b a) s = .next (raiseFormatError .truncatedChunk s.dec.pos s))

/-- R212 with R206, R208: RGB writes (r, g, b, prev.a); truncated, it raises before anything else; before the
first pixel, in a scanning decoder (R55), that alpha is PREV_INIT's. -/
def Obligations.RgbTakesAlphaFromPrev : Prop :=
  ∀ (r g b : Byte) (rest : List Byte) (s : State),
    decode (0xFE :: r :: g :: b :: rest) = .ok (.rgb r g b, rest) ∧
    (s.dec.pos.toNat + 4 + 8 ≤ s.dec.len.toNat → s.dec.p.toNat < s.dec.N →
      exec (.rgb r g b) s = .next (afterChunk 4 ⟨r, g, b, s.dec.prev.a⟩ s)) ∧
    (s.dec.len.toNat < s.dec.pos.toNat + 4 + 8 →
      exec (.rgb r g b) s = .next (raiseFormatError .truncatedChunk s.dec.pos s)) ∧
    (DecScanning s.dec → s.dec.p = 0 → s.dec.prev.a = 255)

/-- R213 with R208: IDX writes the pixel at the position its slot holds; it raises UNWRITTEN_REF where that
position is unwritten. -/
def Obligations.IdxReadsBackItsSlot : Prop :=
  ∀ (slot : Slot) (px : Pixel) (s : State),
    (s.dec.pixRead (cacheRead s.dec.cache slot).toNat = some px → s.dec.p.toNat < s.dec.N →
      exec (.idx slot) s = .next (afterChunk 1 px s)) ∧
    (s.dec.written (cacheRead s.dec.cache slot).toNat = false →
      exec (.idx slot) s = .next (raiseFormatError .unwrittenRef s.dec.pos s))

/-- R213, R255: where R55 holds, the reference of an IDX is unwritten exactly at `dec.p = 0`. -/
def Obligations.UnwrittenRefOnlyAtFirstPixel : Prop :=
  ∀ (slot : Slot) (s : State), DecScanning s.dec →
    (s.dec.written (cacheRead s.dec.cache slot).toNat = false ↔ s.dec.p = 0)

/-- R214 with R121, R208: the DIFF of first byte b0 adds its three biased fields to prev, modulo 256. -/
def Obligations.DiffAddsItsDeltas : Prop :=
  ∀ (b0 : Byte) (rest : List Byte) (s : State), bits b0 7 6 = 1 →
    ∃ dr dg db : Int, decode (b0 :: rest) = .ok (.diff dr dg db, rest) ∧
      dr = (bits b0 5 4 : Int) - 2 ∧ dg = (bits b0 3 2 : Int) - 2 ∧ db = (bits b0 1 0 : Int) - 2 ∧
      (s.dec.p.toNat < s.dec.N → ∃ px : Pixel,
        exec (.diff dr dg db) s = .next (afterChunk 1 px s) ∧
        (px.r.toNat : Int) = (s.dec.prev.r.toNat + dr) % 256 ∧
        (px.g.toNat : Int) = (s.dec.prev.g.toNat + dg) % 256 ∧
        (px.b.toNat : Int) = (s.dec.prev.b.toNat + db) % 256 ∧ px.a = s.dec.prev.a)

/-- R215 with R122, R208: the LUMA of bytes b0, b1 adds dg to green, dg + drg to red, dg + dbg to blue,
modulo 256; truncated, it raises before anything else. -/
def Obligations.LumaAddsItsDeltas : Prop :=
  ∀ (b0 b1 : Byte) (rest : List Byte) (s : State), bits b0 7 6 = 2 →
    ∃ dg drg dbg : Int, decode (b0 :: b1 :: rest) = .ok (.luma dg drg dbg, rest) ∧
      dg = (bits b0 5 0 : Int) - 32 ∧ drg = (bits b1 7 4 : Int) - 8 ∧ dbg = (bits b1 3 0 : Int) - 8 ∧
      (s.dec.pos.toNat + 2 + 8 ≤ s.dec.len.toNat → s.dec.p.toNat < s.dec.N → ∃ px : Pixel,
        exec (.luma dg drg dbg) s = .next (afterChunk 2 px s) ∧
        (px.r.toNat : Int) = (s.dec.prev.r.toNat + (dg + drg)) % 256 ∧
        (px.g.toNat : Int) = (s.dec.prev.g.toNat + dg) % 256 ∧
        (px.b.toNat : Int) = (s.dec.prev.b.toNat + (dg + dbg)) % 256 ∧ px.a = s.dec.prev.a) ∧
      (s.dec.len.toNat < s.dec.pos.toNat + 2 + 8 →
        exec (.luma dg drg dbg) s = .next (raiseFormatError .truncatedChunk s.dec.pos s))

/-- R216 with R123, R208, R219: a RUN of first byte b0 writes prev at `b0[5:0] + 1` positions, sets the one
cache slot of prev to the last of them, and leaves prev; no other pixel changes. It raises PIXEL_OVERFLOW where
one of the writes would pass N. Before the first pixel, in a scanning decoder (R55), prev is PREV_INIT. -/
def Obligations.RunReplaysPrev : Prop :=
  ∀ (b0 : Byte) (rest : List Byte) (s : State), 0xC0 ≤ b0.toNat → b0.toNat ≤ 0xFD →
    decode (b0 :: rest) = .ok (.run (bits b0 5 0 + 1), rest) ∧
    (s.dec.p.toNat + (bits b0 5 0 + 1) ≤ s.dec.N → ∃ m : Memory Pixel,
      exec (.run (bits b0 5 0 + 1)) s = .next
        { s with
          dec :=
            { s.dec with
              pos := s.dec.pos + 1
              cache := cacheWrite s.dec.cache (pixelHash s.dec.prev) (s.dec.p + BitVec.ofNat 64 (bits b0 5 0))
              dst := m
              p := s.dec.p + BitVec.ofNat 64 (bits b0 5 0 + 1)
              phase := if s.dec.len.toNat ≤ (s.dec.pos + 1).toNat + 8 then .finish else s.dec.phase } } ∧
      ∀ q, Memory.read m q =
        if s.dec.p.toNat ≤ q ∧ q < s.dec.p.toNat + (bits b0 5 0 + 1) then some s.dec.prev
        else Memory.read s.dec.dst q) ∧
    (s.dec.N < s.dec.p.toNat + (bits b0 5 0 + 1) →
      exec (.run (bits b0 5 0 + 1)) s = .next (raiseFormatError .pixelOverflow s.dec.pos s)) ∧
    (DecScanning s.dec → s.dec.p = 0 → s.dec.prev = ⟨0, 0, 0, 255⟩)

/-- R254, R259, D8: a chunk whose pixels would pass the surface raises PIXEL_OVERFLOW, code 4, at the chunk's
start, once its truncation and reference checks have passed. -/
def Obligations.OverflowRaisesAtChunkStart : Prop :=
  ∀ (i : Instr) (s : State), i.wf = true → s.dec.N < s.dec.p.toNat + pixelCount i →
    (i.length = 1 ∨ s.dec.pos.toNat + i.length + 8 ≤ s.dec.len.toNat) →
    (∀ slot, i = .idx slot → s.dec.written (cacheRead s.dec.cache slot).toNat = true) →
    exec i s = .next (raiseFormatError .pixelOverflow s.dec.pos s) ∧
      Raised (raiseFormatError .pixelOverflow s.dec.pos s) 4 s.dec.pos

/-- R125, R206: every chunk, on every state, answers a next state; its errors are next states too. -/
def Obligations.EveryChunkAnswersNext : Prop :=
  ∀ (i : Instr) (s : State), ∃ t, exec i s = .next t

/-- The frame of the six chunks (R206, R208, R216, R250). Whatever a chunk does, it leaves the encoder, the
parameters, the host port, the input buffer and the latched header. Without an error it also leaves
`dec.cause`, `dec.epos`, every output position but the pixels it writes, which are the `pixelCount` positions
from `dec.p` on, and every cache slot but the one of its last pixel; `dec.pos` advances by its length. -/
def Obligations.ChunkFrame : Prop :=
  ∀ (i : Instr) (s t : State), i.wf = true → s.dec.phase = .chunks → exec i s = .next t →
    t.enc = s.enc ∧ t.cfg = s.cfg ∧ t.host = s.host ∧ t.dec.src = s.dec.src ∧ t.dec.len = s.dec.len ∧
    t.dec.supply = s.dec.supply ∧ t.dec.W = s.dec.W ∧ t.dec.H = s.dec.H ∧ t.dec.chan = s.dec.chan ∧
    t.dec.cs = s.dec.cs ∧
    (t.dec.phase ≠ .error →
      t.dec.cause = s.dec.cause ∧ t.dec.epos = s.dec.epos ∧ t.draws = s.draws ∧
      t.dec.pos = s.dec.pos + BitVec.ofNat 64 i.length ∧
      t.dec.p = s.dec.p + BitVec.ofNat 64 (pixelCount i) ∧
      (∀ q, ¬ (s.dec.p.toNat ≤ q ∧ q < s.dec.p.toNat + pixelCount i) →
        Memory.read t.dec.dst q = Memory.read s.dec.dst q) ∧
      (∀ slot, slot ≠ pixelHash t.dec.prev → cacheRead t.dec.cache slot = cacheRead s.dec.cache slot))

/-! ### The decoder's other steps and its exception -/

/-- R250, R258, R260: what raising a FormatError writes, and what it leaves. After causes 3 to 6 the latched
header stays valid; the surface is withdrawn, so no position holds a value (the model's form of it: entry 8). -/
def Obligations.FormatErrorEntry : Prop :=
  ∀ (c : Cause) (e : U64) (s : State),
    (raiseFormatError c e s).dec.phase = .error ∧ (raiseFormatError c e s).dec.epos = e ∧
    (raiseFormatError c e s).dec.cause = causeCode c ∧
    (c ≠ .badMagic → c ≠ .shortInput →
      (raiseFormatError c e s).dec.W = s.dec.W ∧ (raiseFormatError c e s).dec.H = s.dec.H ∧
      (raiseFormatError c e s).dec.chan = s.dec.chan ∧ (raiseFormatError c e s).dec.cs = s.dec.cs) ∧
    (∀ q, (raiseFormatError c e s).dec.written q = false) ∧
    (raiseFormatError c e s).enc = s.enc ∧ (raiseFormatError c e s).cfg = s.cfg ∧
    (raiseFormatError c e s).host = s.host ∧ (raiseFormatError c e s).dec.src = s.dec.src ∧
    (raiseFormatError c e s).dec.len = s.dec.len ∧
    causeCode .badMagic = 1 ∧ causeCode .shortInput = 2 ∧ causeCode .truncatedChunk = 3 ∧
    causeCode .pixelOverflow = 4 ∧ causeCode .unwrittenRef = 5 ∧ causeCode .pixelUnderflow = 6

/-- R261: ERROR is left only by a DECODE START: every other move leaves the decoder as it is. -/
def Obligations.ErrorIsLeftOnlyByStart : Prop :=
  ∀ (m : Move) (s t : State), s.dec.phase = .error → moveStep m s = .next t →
    t.dec = s.dec ∨ ∃ bytes supply, m = .host (.startDecode bytes supply) ∧ t.dec.phase = .header

/-- R251: fewer than 4 bytes (the spec's decision D6), or other first bytes than MAGIC, raise BAD_MAGIC, code 1,
at position 0, also for a buffer too short for a header (R259). -/
def Obligations.BadMagicRaises : Prop :=
  ∀ s : State, s.dec.phase = .header → Memory.spans s.dec.src s.dec.len.toNat →
    (s.dec.len.toNat < 4 ∨
      s.dec.bufReads 0 4 ≠
        some [s.cfg.magic.b0, s.cfg.magic.b1, s.cfg.magic.b2, s.cfg.magic.b3]) →
    decStep s = .next (raiseFormatError .badMagic 0 s) ∧ Raised (raiseFormatError .badMagic 0 s) 1 0

/-- R252, D6: the right magic with fewer than 22 bytes raises SHORT_INPUT, code 2, at position `dec.len`. -/
def Obligations.ShortInputRaises : Prop :=
  ∀ s : State, s.dec.phase = .header → 4 ≤ s.dec.len.toNat → s.dec.len.toNat < 22 →
    s.dec.bufReads 0 4 = some [s.cfg.magic.b0, s.cfg.magic.b1, s.cfg.magic.b2, s.cfg.magic.b3] →
    decStep s = .next (raiseFormatError .shortInput s.dec.len s) ∧
      Raised (raiseFormatError .shortInput s.dec.len s) 2 s.dec.len

/-- R203, R205, R71, R204: on a buffer that begins with a header and has room for the end marker, the header
step latches W, H, channel and colorspace bytes, seeds the engine and enters CHUNKS, or FINISH where the
chunk region is empty; it is refused where the host cannot supply the surface. -/
def Obligations.HeaderStepLatches : Prop :=
  ∀ (W H : U32) (chan cs : Byte) (rest : List Byte) (s : State), s.dec.phase = .header →
    s.dec.src = Memory.ofList (headerBytes s.cfg.magic W H chan cs ++ rest) →
    s.dec.len.toNat = 14 + rest.length → 8 ≤ rest.length →
    (W.toNat * H.toNat ≤ s.dec.supply →
      decStep s = .next
        { s with
          dec :=
            { s.dec with
              W := W
              H := H
              chan := chan
              cs := cs
              dst := []
              prev := ⟨0, 0, 0, 255⟩
              cache := Vector.replicate 64 0
              p := 0
              pos := 14
              phase := if 8 < rest.length then .chunks else .finish } }) ∧
    (s.dec.supply < W.toNat * H.toNat → decStep s = .refused .noOutputSurface)

/-- R210, R256, D9: the finish step is DONE where the pixels are exactly N, and else raises PIXEL_UNDERFLOW,
code 6, at `dec.pos`. -/
def Obligations.FinishStepChecksPixelCount : Prop :=
  ∀ s : State, s.dec.phase = .finish →
    (s.dec.p.toNat = s.dec.N → decStep s = .next { s with dec := { s.dec with phase := .done } }) ∧
    (s.dec.p.toNat ≠ s.dec.N → decStep s = .next (raiseFormatError .pixelUnderflow s.dec.pos s) ∧
      Raised (raiseFormatError .pixelUnderflow s.dec.pos s) 6 s.dec.pos)

/-- R206, R253, D7: in CHUNKS, a multi-byte chunk that passes the start of the end-marker region raises
TRUNCATED_CHUNK, code 3, at its start, whatever its operand bytes are or hold. -/
def Obligations.TruncatedChunkRaises : Prop :=
  ∀ (b0 : Byte) (s : State), s.dec.phase = .chunks → s.dec.bufRead s.dec.pos.toNat = some b0 →
    1 < chunkLen b0 → s.dec.len.toNat < s.dec.pos.toNat + chunkLen b0 + 8 →
    decStep s = .next (raiseFormatError .truncatedChunk s.dec.pos s) ∧
      Raised (raiseFormatError .truncatedChunk s.dec.pos s) 3 s.dec.pos

/-- R206: when DEC moves next and scans chunks, and the bytes at `dec.pos` are those of a well-formed chunk
that lies before the end-marker region, the step is `exec` of that chunk on the state whose move has been
taken from the agenda. -/
def Obligations.StepRunsTheDecodedChunk : Prop :=
  ∀ (i : Instr) (s : State), s.nextMove = some .dec → s.dec.phase = .chunks → i.wf = true →
    s.dec.bufReads s.dec.pos.toNat i.length = some (encode i) →
    s.dec.pos.toNat + i.length + 8 ≤ s.dec.len.toNat →
    step s = exec i s.takeMove

/-- R105, R217: the end marker's content is not validated: a step of the decoder that scans is the same on two
buffers that agree below `dec.len - 8`. -/
def Obligations.EndMarkerContentIsInert : Prop :=
  ∀ (s t : State) (m : Memory Byte), (∀ a, a + 8 < s.dec.len.toNat → Memory.read m a = Memory.read s.dec.src a) →
    DecInv s.dec → s.dec.phase = .chunks → decStep s = .next t →
    decStep { s with dec := { s.dec with src := m } } = .next { t with dec := { t.dec with src := m } }

/-! ### The encoder's steps -/

/-- R15, R80, R77: appended bytes land at consecutive positions from the end of the buffer on, the buffer grows
by exactly their number, however long it is, and nothing else changes but `enc.opos`, which advances by their
number as long as 64 bits count the buffer. Where the buffer holds the positions below its length, as it does
from START on, its end is that length, so the k-th byte appended since START lands at position k; and where it
holds those below `enc.opos`, its end is `enc.opos`. -/
def Obligations.EmitAppends : Prop :=
  ∀ (bs : List Byte) (e : EncState),
    (∃ (m : Memory Byte) (o : U64), emit bs e = { e with dst := m, opos := o } ∧
      m.length = e.dst.length + bs.length ∧
      (∀ k, k < bs.length → Memory.read m (Memory.next e.dst + k) = bs[k]?) ∧
      (∀ a, ¬ (Memory.next e.dst ≤ a ∧ a < Memory.next e.dst + bs.length) →
        Memory.read m a = Memory.read e.dst a) ∧
      (e.dst.length + bs.length < 2 ^ 64 → o = e.opos + BitVec.ofNat 64 bs.length)) ∧
    (Memory.spans e.dst e.dst.length →
      Memory.next e.dst = e.dst.length ∧ Memory.spans (emit bs e).dst (e.dst.length + bs.length)) ∧
    (Memory.spans e.dst e.opos.toNat → Memory.next e.dst = e.opos.toNat)

/-- R161, R101, R71: the encoder's header step emits MAGIC, width and height big-endian, 4 and 0, and goes to
FINISH where there is no pixel, else to PIXELS. -/
def Obligations.EncoderHeaderStep : Prop :=
  ∀ s : State, s.enc.phase = .header →
    encStep s = .next
      { s with
        enc :=
          { emit
              [s.cfg.magic.b0, s.cfg.magic.b1, s.cfg.magic.b2, s.cfg.magic.b3,
                s.enc.W.extractLsb' 24 8, s.enc.W.extractLsb' 16 8, s.enc.W.extractLsb' 8 8,
                s.enc.W.extractLsb' 0 8,
                s.enc.H.extractLsb' 24 8, s.enc.H.extractLsb' 16 8, s.enc.H.extractLsb' 8 8,
                s.enc.H.extractLsb' 0 8, 4, 0] s.enc with
            phase := if s.enc.W.toNat * s.enc.H.toNat = 0 then .finish else .pixels } }

/-- R163, R164, R167, R168: a pixel equal to prev emits nothing and counts up, except that the 62nd is emitted
at once as 0xFD and the counter goes back to 0. -/
def Obligations.RunPathCountsAndCaps : Prop :=
  ∀ s : State, s.enc.phase = .pixels → s.enc.pixRead s.enc.i.toNat = some s.enc.prev →
    (s.enc.run ≠ 61 → encStep s = .next (afterPixel [] (s.enc.run + 1) s.enc.prev s)) ∧
    (s.enc.run = 61 → encStep s = .next (afterPixel [0xFD] 0 s.enc.prev s))

/-- R162, R165 to R168, R171, R173 to R177, R286: a differing pixel first flushes the pending run, then emits
exactly one chunk, the first that applies of IDX (never at pixel 0), DIFF, LUMA, RGB, RGBA. -/
def Obligations.DifferingPixelEmitsOneChunk : Prop :=
  ∀ (px : Pixel) (s : State), s.enc.phase = .pixels → s.enc.pixRead s.enc.i.toNat = some px →
    px ≠ s.enc.prev →
    (s.enc.i = 0 ∨ (s.enc.pixRead (cacheRead s.enc.cache (pixelHash px)).toNat).isSome = true) →
    ∃ c : Instr, encStep s = .next (afterPixel (owedRun s.enc ++ encode c) 0 px s) ∧
      (s.enc.i ≠ 0 → s.enc.pixRead (cacheRead s.enc.cache (pixelHash px)).toNat = some px →
        c = .idx (pixelHash px)) ∧
      (s.enc.i = 0 ∨ s.enc.pixRead (cacheRead s.enc.cache (pixelHash px)).toNat ≠ some px →
        (fitsDiff s.cfg.deltaMode px s.enc.prev = true →
          c = .diff (delta s.cfg.deltaMode px.r s.enc.prev.r) (delta s.cfg.deltaMode px.g s.enc.prev.g)
            (delta s.cfg.deltaMode px.b s.enc.prev.b)) ∧
        (fitsDiff s.cfg.deltaMode px s.enc.prev = false →
          fitsLuma s.cfg.deltaMode px s.enc.prev = true →
          c = .luma (delta s.cfg.deltaMode px.g s.enc.prev.g)
            (delta s.cfg.deltaMode px.r s.enc.prev.r - delta s.cfg.deltaMode px.g s.enc.prev.g)
            (delta s.cfg.deltaMode px.b s.enc.prev.b - delta s.cfg.deltaMode px.g s.enc.prev.g)) ∧
        (fitsDiff s.cfg.deltaMode px s.enc.prev = false →
          fitsLuma s.cfg.deltaMode px s.enc.prev = false →
          (px.a = s.enc.prev.a → c = .rgb px.r px.g px.b) ∧
          (px.a ≠ s.enc.prev.a → c = .rgba px.r px.g px.b px.a)))

/-- R181: a pixel whose alpha differs from prev's is coded, after the owed run, as IDX where it is a cache hit
past pixel 0, and else as RGBA; so it is never RUN, DIFF, LUMA or RGB. -/
def Obligations.AlphaTransitionIsIdxOrRgba : Prop :=
  ∀ (px : Pixel) (s : State), s.enc.phase = .pixels → s.enc.pixRead s.enc.i.toNat = some px →
    px.a ≠ s.enc.prev.a →
    (s.enc.i = 0 ∨ (s.enc.pixRead (cacheRead s.enc.cache (pixelHash px)).toNat).isSome = true) →
    (s.enc.i ≠ 0 ∧ s.enc.pixRead (cacheRead s.enc.cache (pixelHash px)).toNat = some px →
      encStep s = .next (afterPixel (owedRun s.enc ++ [(pixelHash px).setWidth 8]) 0 px s)) ∧
    (¬ (s.enc.i ≠ 0 ∧ s.enc.pixRead (cacheRead s.enc.cache (pixelHash px)).toNat = some px) →
      encStep s = .next (afterPixel (owedRun s.enc ++ [0xFF, px.r, px.g, px.b, px.a]) 0 px s))

/-- R169: the finish step flushes a pending run, appends the end marker and is DONE. -/
def Obligations.EncoderFinishStep : Prop :=
  ∀ s : State, s.enc.phase = .finish →
    encStep s = .next
      { s with
        enc := { emit (owedRun s.enc ++ [0, 0, 0, 0, 0, 0, 0, 1]) s.enc with run := 0, phase := .done } }

/-- R180: k consecutive pixels equal to prev, met with no run pending, are emitted as k / 62 chunks 0xFD, and
k % 62 of them are then pending; nothing else is emitted. -/
def Obligations.RunBlockIsCutAtSixtyTwo : Prop :=
  ∀ (k : Nat) (s : State), s.enc.phase = .pixels → s.enc.run = 0 →
    s.enc.i.toNat + k < s.enc.N →
    (∀ j, j < k → s.enc.pixRead (s.enc.i.toNat + j) = some s.enc.prev) →
    ∃ t, encSteps k s = .next t ∧ t.enc.run.toNat = k % 62 ∧ t.enc.prev = s.enc.prev ∧
      t.enc.i.toNat = s.enc.i.toNat + k ∧ t.enc.phase = .pixels ∧
      (t.enc.dst, t.enc.opos) =
        ((emit (List.replicate (k / 62) 0xFD) s.enc).dst, (emit (List.replicate (k / 62) 0xFD) s.enc).opos)

/-- R178, R179: from ENCODE START on any whole surface, ENC is DONE after exactly N + 2 steps and not before,
with between 22 and 22 + 5 N bytes appended, at positions 0 up, and `enc.opos` is their number as long as 64
bits can count them. -/
def Obligations.EncodeEndsInNPlusTwoSteps : Prop :=
  ∀ (W H : U32) (pixels : List Pixel) (s : State), pixels.length = W.toNat * H.toNat →
    (∃ t, encSteps (W.toNat * H.toNat + 2) (beginEncode W H pixels s) = .next t ∧ t.enc.phase = .done ∧
      22 ≤ t.enc.dst.length ∧ t.enc.dst.length ≤ 22 + 5 * (W.toNat * H.toNat) ∧
      Memory.spans t.enc.dst t.enc.dst.length ∧
      (t.enc.dst.length < 2 ^ 64 → t.enc.opos.toNat = t.enc.dst.length)) ∧
    (∀ k, k < W.toNat * H.toNat + 2 →
      ∃ t, encSteps k (beginEncode W H pixels s) = .next t ∧ t.enc.phase ≠ .done)

/-- The frame of the encoder (R31, R77, R80, R36): its steps leave the decoder, the parameters, the host port,
its surface and dimensions; and every byte appended so far stays. -/
def Obligations.EncoderFrame : Prop :=
  ∀ s t : State, encStep s = .next t →
    t.dec = s.dec ∧ t.cfg = s.cfg ∧ t.host = s.host ∧ t.draws = s.draws ∧ t.enc.src = s.enc.src ∧
    t.enc.W = s.enc.W ∧ t.enc.H = s.enc.H ∧
    ∀ a b, Memory.read s.enc.dst a = some b → Memory.read t.enc.dst a = some b

/-! ### The host port and the machine -/

/-- R160: ENCODE START from IDLE or DONE, and from no other phase, binds the surface and an empty buffer and
seeds the engine. -/
def Obligations.EncodeStartSeeds : Prop :=
  ∀ (W H : U32) (pixels : List Pixel) (room : Nat) (s : State),
    (s.enc.phase = .idle ∨ s.enc.phase = .done → pixels.length = W.toNat * H.toNat →
      22 + 5 * (W.toNat * H.toNat) ≤ room →
      ∃ e : EncState, hostStep (.startEncode W H pixels room) s = .next { s with enc := e } ∧
        e.W = W ∧ e.H = H ∧ e.i = 0 ∧ e.prev = ⟨0, 0, 0, 255⟩ ∧ e.run = 0 ∧
        (∀ slot, cacheRead e.cache slot = 0) ∧ e.opos = 0 ∧ e.phase = .header ∧ e.dst = [] ∧
        ∀ k, k < pixels.length → e.pixRead k = pixels[k]?) ∧
    (s.enc.phase ≠ .idle → s.enc.phase ≠ .done → ∃ r, hostStep (.startEncode W H pixels room) s = .refused r)

/-- R200: DECODE START from IDLE, DONE or ERROR, and from no other phase, binds the buffer, latches its length,
and clears `dec.pos` and the cause. -/
def Obligations.DecodeStartBinds : Prop :=
  ∀ (bytes : List Byte) (supply : Nat) (s : State),
    (s.dec.phase = .idle ∨ s.dec.phase = .done ∨ s.dec.phase = .error → bytes.length < 2 ^ 64 →
      ∃ t, hostStep (.startDecode bytes supply) s = .next t ∧ t.dec.len.toNat = bytes.length ∧
        t.dec.pos = 0 ∧ t.dec.cause = 0 ∧ t.dec.phase = .header ∧ t.enc = s.enc ∧ t.cfg = s.cfg ∧
        t.host = s.host ∧ ∀ k, t.dec.bufRead k = bytes[k]?) ∧
    (s.dec.phase ≠ .idle → s.dec.phase ≠ .done → s.dec.phase ≠ .error →
      ∃ r, hostStep (.startDecode bytes supply) s = .refused r)

/-- R269, R292: a START of an engine that runs, and the reading of a result outside DONE, are refused; in DONE
the host reads the result, and it reads the status in any phase (R56). -/
def Obligations.HostProtocol : Prop :=
  ∀ s : State,
    (∀ W H pixels room, s.enc.active = true →
      hostStep (.startEncode W H pixels room) s = .refused .startWhileRunning) ∧
    (∀ bytes supply, s.dec.active = true →
      hostStep (.startDecode bytes supply) s = .refused .startWhileRunning) ∧
    (s.enc.phase ≠ .done → hostStep .readEncoded s = .refused .resultBeforeDone) ∧
    (s.dec.phase ≠ .done → hostStep .readDecoded s = .refused .resultBeforeDone) ∧
    (s.enc.phase = .done →
      hostStep .readEncoded s = .next (sawView (.encoded s.enc.opos s.enc.dst) s)) ∧
    (s.dec.phase = .done →
      hostStep .readDecoded s = .next (sawView (.decoded s.dec.W s.dec.H s.dec.dst) s)) ∧
    hostStep .readEncStatus s = .next (sawView (.encStatus s.enc.phase s.enc.opos) s) ∧
    hostStep .readDecStatus s = .next
      (sawView (.decStatus s.dec.phase s.dec.cause s.dec.epos s.dec.W s.dec.H s.dec.chan s.dec.cs) s)

/-- R30, R33: a step is one whole move of whoever moves next, once that move has been taken; with an empty
agenda it is DEC while DEC runs, else ENC while ENC runs (entry 6), else the machine stays (entry 7). -/
def Obligations.StepMakesTheNextMove : Prop :=
  (∀ (s : State) (m : Move) (ms : List Move), s.host.agenda = m :: ms →
    step s = moveStep m { s with host := { s.host with agenda := ms } }) ∧
  (∀ s : State, s.host.agenda = [] →
    (s.dec.active = true → step s = decStep s) ∧
    (s.dec.active = false → s.enc.active = true → step s = encStep s) ∧
    (s.dec.active = false → s.enc.active = false → step s = .next s))

/-- R280: after power-on both engines are IDLE. -/
def Obligations.ResetIsIdle : Prop :=
  State.reset.enc.phase = .idle ∧ State.reset.dec.phase = .idle

/-- The memories are in canonical form at reset (entry 11). -/
def Obligations.ResetMemoriesAreCanonical : Prop := State.reset.memWf = true

/-- Every step keeps all memories in canonical form (entry 11). -/
def Obligations.StepKeepsMemoriesCanonical : Prop :=
  ∀ s t : State, s.memWf = true → step s = .next t → t.memWf = true

/-- The invariant holds at reset. -/
def Obligations.ResetMeetsInvariant : Prop := State.reset.Inv

/-- R44: every step keeps the encoder's invariant. -/
def Obligations.StepKeepsEncoderInvariant : Prop :=
  ∀ s t : State, s.memWf = true → EncInv s.enc → step s = .next t → EncInv t.enc

/-- R55: every step keeps the decoder's invariant. -/
def Obligations.StepKeepsDecoderInvariant : Prop :=
  ∀ s t : State, s.memWf = true → DecInv s.dec → step s = .next t → DecInv t.dec

/-- Where the invariant holds, no step faults: R262 (the encoder raises nothing), R44 (c), R81 (the decoder
reads inside its buffer) and R218 (the dispatch has no residual arm): what is refused is a host action or a
surface the host cannot supply. -/
def Obligations.InvariantStepsDoNotStop : Prop :=
  ∀ s : State, s.Inv →
    (∃ t, step s = .next t) ∨ (∃ a r, s.nextMove = some (.host a) ∧ step s = .refused r) ∨
      (s.nextMove = some .dec ∧ s.dec.phase = .header ∧ step s = .refused .noOutputSurface)

/-- R58: no step changes the parameters. -/
def Obligations.ParametersNeverChange : Prop :=
  ∀ s t : State, step s = .next t → t.cfg = s.cfg

/-- R31, R84: the engines share nothing: a step of one leaves the other's registers and memories, and what it
does to its own does not depend on the other's. -/
def Obligations.EnginesShareNothing : Prop :=
  (∀ s t : State, encStep s = .next t → t.dec = s.dec) ∧
  (∀ s t : State, decStep s = .next t → t.enc = s.enc) ∧
  (∀ (s : State) (d : DecState),
    encStep { s with dec := d } = mapNext (fun t => { t with dec := d }) (encStep s)) ∧
  (∀ (s : State) (e : EncState),
    decStep { s with enc := e } = mapNext (fun t => { t with enc := e }) (decStep s))

/-- R222: `DELTA_MODE` is not an input to the decoder. -/
def Obligations.DecoderIgnoresDeltaMode : Prop :=
  ∀ (s : State) (m : DeltaMode), decStep (s.withMode m) = mapNext (State.withMode m) (decStep s)

/-- R283: what a DECODE does after START does not depend on what ran before: after any number of steps, two
machines with one MAGIC, draw count and buffer have the same decoder, whether they pass or raise. (That the
registers START does not write are draws of that count is the model's choice: entry 9.) -/
def Obligations.DecodeForgetsEarlierOperations : Prop :=
  ∀ (bytes : List Byte) (supply k : Nat) (s s' : State), s.cfg.magic = s'.cfg.magic → s.draws = s'.draws →
    ∀ t, decSteps k (beginDecode bytes supply s) = .next t →
      ∃ t', decSteps k (beginDecode bytes supply s') = .next t' ∧ t'.dec = t.dec

/-- R223: from DECODE START, DEC is in DONE or ERROR within `dec.len - 22 + 2` steps (2 for a shorter buffer),
where the host can supply the surface. -/
def Obligations.DecodeEndsWithinLength : Prop :=
  ∀ (bytes : List Byte) (supply : Nat) (s : State), bytes.length < 2 ^ 64 →
    (decStep (beginDecode bytes supply s) = .refused .noOutputSurface) ∨
    ∃ (k : Nat) (t : State), k ≤ bytes.length - 22 + 2 ∧
      decSteps k (beginDecode bytes supply s) = .next t ∧ (t.dec.phase = .done ∨ t.dec.phase = .error)

/-- R221: the round trip. The machine encodes any whole surface and then decodes its own output, and the output
surface is the input surface, in both values of `DELTA_MODE` and for every MAGIC, wherever a u64 counts the
encoded bytes, as a decoder's input needs (entry 15). -/
def Obligations.DecodeOfEncodeIsTheSurface : Prop :=
  ∀ (W H : U32) (pixels : List Pixel) (s : State), pixels.length = W.toNat * H.toNat →
    ∃ t, encSteps (W.toNat * H.toNat + 2) (beginEncode W H pixels s) = .next t ∧ t.enc.phase = .done ∧
      ∀ supply, t.enc.dst.length < 2 ^ 64 → W.toNat * H.toNat ≤ supply →
        ∃ (k : Nat) (u : State), decSteps k (beginDecode (Memory.units t.enc.dst) supply t) = .next u ∧
          u.dec.phase = .done ∧ u.dec.W = W ∧ u.dec.H = H ∧ u.dec.chan = 4 ∧ u.dec.cs = 0 ∧
          ∀ q, u.dec.pixRead q = pixels[q]?

/-- R61, R220: lockstep. After k pixels with no run pending, the decoder run on the bytes emitted so far, followed
by any bytes that keep an end-marker region, reaches the same previous pixel, cache and position. -/
def Obligations.EnginesRunInLockstep : Prop :=
  ∀ (W H : U32) (pixels : List Pixel) (k : Nat) (s t : State), pixels.length = W.toNat * H.toNat →
    k ≤ W.toNat * H.toNat →
    encSteps (k + 1) (beginEncode W H pixels s) = .next t → t.enc.run = 0 →
    ∀ (more : List Byte) (supply : Nat), 8 ≤ more.length → W.toNat * H.toNat ≤ supply →
      t.enc.dst.length + more.length < 2 ^ 64 →
      ∃ (j : Nat) (u : State), decSteps j (beginDecode (Memory.units t.enc.dst ++ more) supply t) = .next u ∧
        u.dec.prev = t.enc.prev ∧ u.dec.cache = t.enc.cache ∧ u.dec.p.toNat = k ∧
        u.dec.pos.toNat = t.enc.dst.length

/-- R283: what an ENCODE does after START does not depend on what ran before: after any number of steps, two
machines with the same parameters and surface have the same encoder. -/
def Obligations.EncodeForgetsEarlierOperations : Prop :=
  ∀ (W H : U32) (pixels : List Pixel) (k : Nat) (s s' : State), s.cfg = s'.cfg →
    ∀ t, encSteps k (beginEncode W H pixels s) = .next t →
      ∃ t', encSteps k (beginEncode W H pixels s') = .next t' ∧ t'.enc = t.enc
end

