-- ==== Sys2Proof/Laws/State.lean ====
section
/-! SUPPORT. One lemma per field per named update of the state: what each update writes and what it leaves. -/

namespace Sys2Proof.Machine

/-! #### raiseFormatError -/

@[simp] theorem raiseFormatError_cfg (c : Cause) (e : U64) (s : State) : (raiseFormatError c e s).cfg = s.cfg := rfl
@[simp] theorem raiseFormatError_enc (c : Cause) (e : U64) (s : State) : (raiseFormatError c e s).enc = s.enc := rfl
@[simp] theorem raiseFormatError_host (c : Cause) (e : U64) (s : State) : (raiseFormatError c e s).host = s.host := rfl
@[simp] theorem raiseFormatError_draws (c : Cause) (e : U64) (s : State) : (raiseFormatError c e s).draws = s.draws + 1 := rfl
@[simp] theorem raiseFormatError_dec_phase (c : Cause) (e : U64) (s : State) : (raiseFormatError c e s).dec.phase = .error := rfl
@[simp] theorem raiseFormatError_dec_cause (c : Cause) (e : U64) (s : State) : (raiseFormatError c e s).dec.cause = causeCode c := rfl
@[simp] theorem raiseFormatError_dec_epos (c : Cause) (e : U64) (s : State) : (raiseFormatError c e s).dec.epos = e := rfl
@[simp] theorem raiseFormatError_dec_src (c : Cause) (e : U64) (s : State) : (raiseFormatError c e s).dec.src = s.dec.src := rfl
@[simp] theorem raiseFormatError_dec_dst (c : Cause) (e : U64) (s : State) : (raiseFormatError c e s).dec.dst = [] := rfl
@[simp] theorem raiseFormatError_dec_len (c : Cause) (e : U64) (s : State) : (raiseFormatError c e s).dec.len = s.dec.len := rfl
@[simp] theorem raiseFormatError_dec_supply (c : Cause) (e : U64) (s : State) : (raiseFormatError c e s).dec.supply = s.dec.supply := rfl

theorem raiseFormatError_dec_W (c : Cause) (e : U64) (s : State) (h : latchedBy c = true) :
    (raiseFormatError c e s).dec.W = s.dec.W := by
  simp [raiseFormatError, h]
theorem raiseFormatError_dec_H (c : Cause) (e : U64) (s : State) (h : latchedBy c = true) :
    (raiseFormatError c e s).dec.H = s.dec.H := by
  simp [raiseFormatError, h]
theorem raiseFormatError_dec_chan (c : Cause) (e : U64) (s : State) (h : latchedBy c = true) :
    (raiseFormatError c e s).dec.chan = s.dec.chan := by
  simp [raiseFormatError, h]
theorem raiseFormatError_dec_cs (c : Cause) (e : U64) (s : State) (h : latchedBy c = true) :
    (raiseFormatError c e s).dec.cs = s.dec.cs := by
  simp [raiseFormatError, h]

/-! #### sawView -/

@[simp] theorem sawView_cfg (v : HostView) (s : State) : (sawView v s).cfg = s.cfg := rfl
@[simp] theorem sawView_enc (v : HostView) (s : State) : (sawView v s).enc = s.enc := rfl
@[simp] theorem sawView_dec (v : HostView) (s : State) : (sawView v s).dec = s.dec := rfl
@[simp] theorem sawView_draws (v : HostView) (s : State) : (sawView v s).draws = s.draws := rfl
@[simp] theorem sawView_host_agenda (v : HostView) (s : State) : (sawView v s).host.agenda = s.host.agenda := rfl
@[simp] theorem sawView_host_seen (v : HostView) (s : State) : (sawView v s).host.seen = s.host.seen ++ [v] := rfl

/-! #### takeMove -/

@[simp] theorem takeMove_cfg (s : State) : (State.takeMove s).cfg = s.cfg := rfl
@[simp] theorem takeMove_enc (s : State) : (State.takeMove s).enc = s.enc := rfl
@[simp] theorem takeMove_dec (s : State) : (State.takeMove s).dec = s.dec := rfl
@[simp] theorem takeMove_draws (s : State) : (State.takeMove s).draws = s.draws := rfl
@[simp] theorem takeMove_host_agenda (s : State) : (State.takeMove s).host.agenda = s.host.agenda.tail := rfl
@[simp] theorem takeMove_host_seen (s : State) : (State.takeMove s).host.seen = s.host.seen := rfl

/-! #### withAgenda -/

@[simp] theorem withAgenda_cfg (s : State) (ms : List Move) : (State.withAgenda s ms).cfg = s.cfg := rfl
@[simp] theorem withAgenda_enc (s : State) (ms : List Move) : (State.withAgenda s ms).enc = s.enc := rfl
@[simp] theorem withAgenda_dec (s : State) (ms : List Move) : (State.withAgenda s ms).dec = s.dec := rfl
@[simp] theorem withAgenda_draws (s : State) (ms : List Move) : (State.withAgenda s ms).draws = s.draws := rfl
@[simp] theorem withAgenda_host_agenda (s : State) (ms : List Move) : (State.withAgenda s ms).host.agenda = ms := rfl
@[simp] theorem withAgenda_host_seen (s : State) (ms : List Move) : (State.withAgenda s ms).host.seen = s.host.seen := rfl

/-! #### withMode -/

@[simp] theorem withMode_enc (m : DeltaMode) (s : State) : (State.withMode m s).enc = s.enc := rfl
@[simp] theorem withMode_dec (m : DeltaMode) (s : State) : (State.withMode m s).dec = s.dec := rfl
@[simp] theorem withMode_draws (m : DeltaMode) (s : State) : (State.withMode m s).draws = s.draws := rfl
@[simp] theorem withMode_host (m : DeltaMode) (s : State) : (State.withMode m s).host = s.host := rfl
@[simp] theorem withMode_cfg_magic (m : DeltaMode) (s : State) : (State.withMode m s).cfg.magic = s.cfg.magic := rfl
@[simp] theorem withMode_cfg_deltaMode (m : DeltaMode) (s : State) : (State.withMode m s).cfg.deltaMode = m := rfl

/-! #### beginDecode -/

@[simp] theorem beginDecode_cfg (bs : List Byte) (n : Nat) (s : State) : (beginDecode bs n s).cfg = s.cfg := rfl
@[simp] theorem beginDecode_enc (bs : List Byte) (n : Nat) (s : State) : (beginDecode bs n s).enc = s.enc := rfl
@[simp] theorem beginDecode_host (bs : List Byte) (n : Nat) (s : State) : (beginDecode bs n s).host = s.host := rfl
@[simp] theorem beginDecode_draws (bs : List Byte) (n : Nat) (s : State) : (beginDecode bs n s).draws = s.draws + 1 := rfl
@[simp] theorem beginDecode_dec_phase (bs : List Byte) (n : Nat) (s : State) : (beginDecode bs n s).dec.phase = .header := rfl
@[simp] theorem beginDecode_dec_src (bs : List Byte) (n : Nat) (s : State) : (beginDecode bs n s).dec.src = Memory.ofList bs := rfl
@[simp] theorem beginDecode_dec_len (bs : List Byte) (n : Nat) (s : State) : (beginDecode bs n s).dec.len = BitVec.ofNat 64 bs.length := rfl
@[simp] theorem beginDecode_dec_pos (bs : List Byte) (n : Nat) (s : State) : (beginDecode bs n s).dec.pos = 0 := rfl
@[simp] theorem beginDecode_dec_cause (bs : List Byte) (n : Nat) (s : State) : (beginDecode bs n s).dec.cause = 0 := rfl
@[simp] theorem beginDecode_dec_W (bs : List Byte) (n : Nat) (s : State) : (beginDecode bs n s).dec.W = Config.freeU32 s.draws 2 := rfl
@[simp] theorem beginDecode_dec_H (bs : List Byte) (n : Nat) (s : State) : (beginDecode bs n s).dec.H = Config.freeU32 s.draws 3 := rfl
@[simp] theorem beginDecode_dec_chan (bs : List Byte) (n : Nat) (s : State) : (beginDecode bs n s).dec.chan = Config.freeU8 s.draws 8 := rfl
@[simp] theorem beginDecode_dec_cs (bs : List Byte) (n : Nat) (s : State) : (beginDecode bs n s).dec.cs = Config.freeU8 s.draws 9 := rfl
@[simp] theorem beginDecode_dec_p (bs : List Byte) (n : Nat) (s : State) : (beginDecode bs n s).dec.p = Config.freeU64 s.draws 4 := rfl
@[simp] theorem beginDecode_dec_prev (bs : List Byte) (n : Nat) (s : State) : (beginDecode bs n s).dec.prev = Pixel.free s.draws 1 := rfl
@[simp] theorem beginDecode_dec_cache (bs : List Byte) (n : Nat) (s : State) : (beginDecode bs n s).dec.cache = Cache.free s.draws := rfl
@[simp] theorem beginDecode_dec_epos (bs : List Byte) (n : Nat) (s : State) : (beginDecode bs n s).dec.epos = Config.freeU64 s.draws 5 := rfl
@[simp] theorem beginDecode_dec_dst (bs : List Byte) (n : Nat) (s : State) : (beginDecode bs n s).dec.dst = [] := rfl
@[simp] theorem beginDecode_dec_supply (bs : List Byte) (n : Nat) (s : State) : (beginDecode bs n s).dec.supply = n := rfl

/-! #### beginEncode -/

@[simp] theorem beginEncode_cfg (W H : U32) (px : List Pixel) (s : State) : (beginEncode W H px s).cfg = s.cfg := rfl
@[simp] theorem beginEncode_dec (W H : U32) (px : List Pixel) (s : State) : (beginEncode W H px s).dec = s.dec := rfl
@[simp] theorem beginEncode_host (W H : U32) (px : List Pixel) (s : State) : (beginEncode W H px s).host = s.host := rfl
@[simp] theorem beginEncode_draws (W H : U32) (px : List Pixel) (s : State) : (beginEncode W H px s).draws = s.draws := rfl
@[simp] theorem beginEncode_enc_phase (W H : U32) (px : List Pixel) (s : State) : (beginEncode W H px s).enc.phase = .header := rfl
@[simp] theorem beginEncode_enc_W (W H : U32) (px : List Pixel) (s : State) : (beginEncode W H px s).enc.W = W := rfl
@[simp] theorem beginEncode_enc_H (W H : U32) (px : List Pixel) (s : State) : (beginEncode W H px s).enc.H = H := rfl
@[simp] theorem beginEncode_enc_i (W H : U32) (px : List Pixel) (s : State) : (beginEncode W H px s).enc.i = 0 := rfl
@[simp] theorem beginEncode_enc_prev (W H : U32) (px : List Pixel) (s : State) : (beginEncode W H px s).enc.prev = Config.prevInit := rfl
@[simp] theorem beginEncode_enc_run (W H : U32) (px : List Pixel) (s : State) : (beginEncode W H px s).enc.run = 0 := rfl
@[simp] theorem beginEncode_enc_cache (W H : U32) (px : List Pixel) (s : State) : (beginEncode W H px s).enc.cache = cacheSeed := rfl
@[simp] theorem beginEncode_enc_opos (W H : U32) (px : List Pixel) (s : State) : (beginEncode W H px s).enc.opos = 0 := rfl
@[simp] theorem beginEncode_enc_src (W H : U32) (px : List Pixel) (s : State) : (beginEncode W H px s).enc.src = Memory.ofList px := rfl
@[simp] theorem beginEncode_enc_dst (W H : U32) (px : List Pixel) (s : State) : (beginEncode W H px s).enc.dst = [] := rfl

/-! #### latchHeader -/

@[simp] theorem latchHeader_W (W H : U32) (ch cs : Byte) (d : DecState) : (latchHeader W H ch cs d).W = W := rfl
@[simp] theorem latchHeader_H (W H : U32) (ch cs : Byte) (d : DecState) : (latchHeader W H ch cs d).H = H := rfl
@[simp] theorem latchHeader_chan (W H : U32) (ch cs : Byte) (d : DecState) : (latchHeader W H ch cs d).chan = ch := rfl
@[simp] theorem latchHeader_cs (W H : U32) (ch cs : Byte) (d : DecState) : (latchHeader W H ch cs d).cs = cs := rfl
@[simp] theorem latchHeader_dst (W H : U32) (ch cs : Byte) (d : DecState) : (latchHeader W H ch cs d).dst = [] := rfl
@[simp] theorem latchHeader_prev (W H : U32) (ch cs : Byte) (d : DecState) : (latchHeader W H ch cs d).prev = Config.prevInit := rfl
@[simp] theorem latchHeader_cache (W H : U32) (ch cs : Byte) (d : DecState) : (latchHeader W H ch cs d).cache = cacheSeed := rfl
@[simp] theorem latchHeader_p (W H : U32) (ch cs : Byte) (d : DecState) : (latchHeader W H ch cs d).p = 0 := rfl
@[simp] theorem latchHeader_pos (W H : U32) (ch cs : Byte) (d : DecState) : (latchHeader W H ch cs d).pos = 14 := rfl
@[simp] theorem latchHeader_len (W H : U32) (ch cs : Byte) (d : DecState) : (latchHeader W H ch cs d).len = d.len := rfl
@[simp] theorem latchHeader_src (W H : U32) (ch cs : Byte) (d : DecState) : (latchHeader W H ch cs d).src = d.src := rfl
@[simp] theorem latchHeader_cause (W H : U32) (ch cs : Byte) (d : DecState) : (latchHeader W H ch cs d).cause = d.cause := rfl
@[simp] theorem latchHeader_epos (W H : U32) (ch cs : Byte) (d : DecState) : (latchHeader W H ch cs d).epos = d.epos := rfl
@[simp] theorem latchHeader_supply (W H : U32) (ch cs : Byte) (d : DecState) : (latchHeader W H ch cs d).supply = d.supply := rfl

/-! #### bufAppend -/

@[simp] theorem bufAppend_phase (v : Byte) (e : EncState) : (bufAppend v e).phase = e.phase := rfl
@[simp] theorem bufAppend_W (v : Byte) (e : EncState) : (bufAppend v e).W = e.W := rfl
@[simp] theorem bufAppend_H (v : Byte) (e : EncState) : (bufAppend v e).H = e.H := rfl
@[simp] theorem bufAppend_i (v : Byte) (e : EncState) : (bufAppend v e).i = e.i := rfl
@[simp] theorem bufAppend_prev (v : Byte) (e : EncState) : (bufAppend v e).prev = e.prev := rfl
@[simp] theorem bufAppend_run (v : Byte) (e : EncState) : (bufAppend v e).run = e.run := rfl
@[simp] theorem bufAppend_cache (v : Byte) (e : EncState) : (bufAppend v e).cache = e.cache := rfl
@[simp] theorem bufAppend_src (v : Byte) (e : EncState) : (bufAppend v e).src = e.src := rfl

/-! #### emit -/

@[simp] theorem emit_phase (bs : List Byte) (e : EncState) : (emit bs e).phase = e.phase := by
  induction bs generalizing e with
  | nil => rfl
  | cons b bs ih => simp [emit, ih]
@[simp] theorem emit_W (bs : List Byte) (e : EncState) : (emit bs e).W = e.W := by
  induction bs generalizing e with
  | nil => rfl
  | cons b bs ih => simp [emit, ih]
@[simp] theorem emit_H (bs : List Byte) (e : EncState) : (emit bs e).H = e.H := by
  induction bs generalizing e with
  | nil => rfl
  | cons b bs ih => simp [emit, ih]
@[simp] theorem emit_i (bs : List Byte) (e : EncState) : (emit bs e).i = e.i := by
  induction bs generalizing e with
  | nil => rfl
  | cons b bs ih => simp [emit, ih]
@[simp] theorem emit_prev (bs : List Byte) (e : EncState) : (emit bs e).prev = e.prev := by
  induction bs generalizing e with
  | nil => rfl
  | cons b bs ih => simp [emit, ih]
@[simp] theorem emit_run (bs : List Byte) (e : EncState) : (emit bs e).run = e.run := by
  induction bs generalizing e with
  | nil => rfl
  | cons b bs ih => simp [emit, ih]
@[simp] theorem emit_cache (bs : List Byte) (e : EncState) : (emit bs e).cache = e.cache := by
  induction bs generalizing e with
  | nil => rfl
  | cons b bs ih => simp [emit, ih]
@[simp] theorem emit_src (bs : List Byte) (e : EncState) : (emit bs e).src = e.src := by
  induction bs generalizing e with
  | nil => rfl
  | cons b bs ih => simp [emit, ih]

/-! #### flushRun, countRun, closePixel, encHeader, encFinish -/

@[simp] theorem flushRun_phase (e : EncState) : (flushRun e).phase = e.phase := by
  unfold flushRun; split <;> simp
@[simp] theorem countRun_phase (e : EncState) : (countRun e).phase = e.phase := by
  unfold countRun; split <;> simp
@[simp] theorem flushRun_W (e : EncState) : (flushRun e).W = e.W := by
  unfold flushRun; split <;> simp
@[simp] theorem countRun_W (e : EncState) : (countRun e).W = e.W := by
  unfold countRun; split <;> simp
@[simp] theorem flushRun_H (e : EncState) : (flushRun e).H = e.H := by
  unfold flushRun; split <;> simp
@[simp] theorem countRun_H (e : EncState) : (countRun e).H = e.H := by
  unfold countRun; split <;> simp
@[simp] theorem flushRun_i (e : EncState) : (flushRun e).i = e.i := by
  unfold flushRun; split <;> simp
@[simp] theorem countRun_i (e : EncState) : (countRun e).i = e.i := by
  unfold countRun; split <;> simp
@[simp] theorem flushRun_prev (e : EncState) : (flushRun e).prev = e.prev := by
  unfold flushRun; split <;> simp
@[simp] theorem countRun_prev (e : EncState) : (countRun e).prev = e.prev := by
  unfold countRun; split <;> simp
@[simp] theorem flushRun_cache (e : EncState) : (flushRun e).cache = e.cache := by
  unfold flushRun; split <;> simp
@[simp] theorem countRun_cache (e : EncState) : (countRun e).cache = e.cache := by
  unfold countRun; split <;> simp
@[simp] theorem flushRun_src (e : EncState) : (flushRun e).src = e.src := by
  unfold flushRun; split <;> simp
@[simp] theorem countRun_src (e : EncState) : (countRun e).src = e.src := by
  unfold countRun; split <;> simp
@[simp] theorem flushRun_run (e : EncState) : (flushRun e).run = 0 := by
  unfold flushRun; split
  · assumption
  · rfl
@[simp] theorem closePixel_W (px : Pixel) (e : EncState) : (closePixel px e).W = e.W := rfl
@[simp] theorem closePixel_H (px : Pixel) (e : EncState) : (closePixel px e).H = e.H := rfl
@[simp] theorem closePixel_run (px : Pixel) (e : EncState) : (closePixel px e).run = e.run := rfl
@[simp] theorem closePixel_opos (px : Pixel) (e : EncState) : (closePixel px e).opos = e.opos := rfl
@[simp] theorem closePixel_src (px : Pixel) (e : EncState) : (closePixel px e).src = e.src := rfl
@[simp] theorem closePixel_dst (px : Pixel) (e : EncState) : (closePixel px e).dst = e.dst := rfl
@[simp] theorem closePixel_i (px : Pixel) (e : EncState) : (closePixel px e).i = e.i + 1 := rfl
@[simp] theorem closePixel_prev (px : Pixel) (e : EncState) : (closePixel px e).prev = px := rfl
@[simp] theorem closePixel_cache (px : Pixel) (e : EncState) :
    (closePixel px e).cache = cacheWrite e.cache (pixelHash px) e.i := rfl
@[simp] theorem encHeader_W (m : Magic) (e : EncState) : (encHeader m e).W = e.W := by
  simp [encHeader]
@[simp] theorem encFinish_W (e : EncState) : (encFinish e).W = e.W := by
  simp [encFinish]
@[simp] theorem encHeader_H (m : Magic) (e : EncState) : (encHeader m e).H = e.H := by
  simp [encHeader]
@[simp] theorem encFinish_H (e : EncState) : (encFinish e).H = e.H := by
  simp [encFinish]
@[simp] theorem encHeader_i (m : Magic) (e : EncState) : (encHeader m e).i = e.i := by
  simp [encHeader]
@[simp] theorem encFinish_i (e : EncState) : (encFinish e).i = e.i := by
  simp [encFinish]
@[simp] theorem encHeader_prev (m : Magic) (e : EncState) : (encHeader m e).prev = e.prev := by
  simp [encHeader]
@[simp] theorem encFinish_prev (e : EncState) : (encFinish e).prev = e.prev := by
  simp [encFinish]
@[simp] theorem encHeader_run (m : Magic) (e : EncState) : (encHeader m e).run = e.run := by
  simp [encHeader]
@[simp] theorem encHeader_cache (m : Magic) (e : EncState) : (encHeader m e).cache = e.cache := by
  simp [encHeader]
@[simp] theorem encFinish_cache (e : EncState) : (encFinish e).cache = e.cache := by
  simp [encFinish]
@[simp] theorem encHeader_src (m : Magic) (e : EncState) : (encHeader m e).src = e.src := by
  simp [encHeader]
@[simp] theorem encFinish_src (e : EncState) : (encFinish e).src = e.src := by
  simp [encFinish]
@[simp] theorem encFinish_run (e : EncState) : (encFinish e).run = 0 := by
  simp [encFinish]
@[simp] theorem encFinish_phase (e : EncState) : (encFinish e).phase = .done := rfl

/-! #### settlePhase -/

@[simp] theorem settlePhase_pos (d : DecState) : (settlePhase d).pos = d.pos := by
  unfold settlePhase; split <;> rfl
@[simp] theorem settlePhase_len (d : DecState) : (settlePhase d).len = d.len := by
  unfold settlePhase; split <;> rfl
@[simp] theorem settlePhase_W (d : DecState) : (settlePhase d).W = d.W := by
  unfold settlePhase; split <;> rfl
@[simp] theorem settlePhase_H (d : DecState) : (settlePhase d).H = d.H := by
  unfold settlePhase; split <;> rfl
@[simp] theorem settlePhase_chan (d : DecState) : (settlePhase d).chan = d.chan := by
  unfold settlePhase; split <;> rfl
@[simp] theorem settlePhase_cs (d : DecState) : (settlePhase d).cs = d.cs := by
  unfold settlePhase; split <;> rfl
@[simp] theorem settlePhase_p (d : DecState) : (settlePhase d).p = d.p := by
  unfold settlePhase; split <;> rfl
@[simp] theorem settlePhase_prev (d : DecState) : (settlePhase d).prev = d.prev := by
  unfold settlePhase; split <;> rfl
@[simp] theorem settlePhase_cache (d : DecState) : (settlePhase d).cache = d.cache := by
  unfold settlePhase; split <;> rfl
@[simp] theorem settlePhase_cause (d : DecState) : (settlePhase d).cause = d.cause := by
  unfold settlePhase; split <;> rfl
@[simp] theorem settlePhase_epos (d : DecState) : (settlePhase d).epos = d.epos := by
  unfold settlePhase; split <;> rfl
@[simp] theorem settlePhase_src (d : DecState) : (settlePhase d).src = d.src := by
  unfold settlePhase; split <;> rfl
@[simp] theorem settlePhase_dst (d : DecState) : (settlePhase d).dst = d.dst := by
  unfold settlePhase; split <;> rfl
@[simp] theorem settlePhase_supply (d : DecState) : (settlePhase d).supply = d.supply := by
  unfold settlePhase; split <;> rfl

end Sys2Proof.Machine
end

