-- ==== Sys2Proof/Laws/Memory.lean ====
section
/-! SUPPORT. The laws of the canonical memory: read after write, the canonical form, spans, and its end. -/

namespace Sys2Proof.Machine

variable {α : Type}

@[simp] theorem Memory.read_nil (a : Nat) : Memory.read ([] : Memory α) a = none := rfl

theorem Memory.read_cons (k : Nat) (v : α) (m : Memory α) (a : Nat) :
    Memory.read ((k, v) :: m) a = if a = k then some v else Memory.read m a := rfl

/-- A read after a write: the written unit at its address, the old unit everywhere else. -/
theorem Memory.read_write (m : Memory α) (a : Nat) (v : α) (b : Nat) :
    Memory.read (Memory.write m a v) b = if b = a then some v else Memory.read m b := by
  induction m with
  | nil => rfl
  | cons c m ih =>
    obtain ⟨k, u⟩ := c
    simp only [Memory.write]
    split
    · rfl
    · split
      · next h => subst h; simp only [Memory.read_cons]; split <;> rfl
      · next h1 h2 =>
        simp only [Memory.read_cons, ih]
        split
        · next h => subst h; rw [if_neg (Ne.symm h2)]
        · rfl

theorem Memory.read_write_same (m : Memory α) (a : Nat) (v : α) :
    Memory.read (Memory.write m a v) a = some v := by
  simp [Memory.read_write]

theorem Memory.read_write_other (m : Memory α) {a b : Nat} (v : α) (h : b ≠ a) :
    Memory.read (Memory.write m a v) b = Memory.read m b := by
  simp [Memory.read_write, h]

/-! #### The canonical form -/

theorem Memory.wf_cons (k : Nat) (v : α) (m : Memory α) :
    Memory.wf ((k, v) :: m) = true ↔ (∀ c ∈ m, k < c.1) ∧ Memory.wf m = true := by
  simp [Memory.wf]

theorem Memory.mem_write {m : Memory α} {a : Nat} {v : α} {c : Nat × α}
    (h : c ∈ Memory.write m a v) : c = (a, v) ∨ c ∈ m := by
  induction m with
  | nil => simpa [Memory.write] using h
  | cons d m ih =>
    obtain ⟨k, u⟩ := d
    simp only [Memory.write] at h
    split at h
    · simpa using h
    · split at h
      · rcases List.mem_cons.mp h with h | h
        · exact .inl h
        · exact .inr (List.mem_cons_of_mem _ h)
      · rcases List.mem_cons.mp h with h | h
        · exact .inr (h ▸ List.mem_cons_self ..)
        · exact (ih h).imp_right (List.mem_cons_of_mem _)

/-- Every write keeps the canonical form. -/
theorem Memory.wf_write {m : Memory α} (a : Nat) (v : α) (h : Memory.wf m = true) :
    Memory.wf (Memory.write m a v) = true := by
  induction m with
  | nil => rfl
  | cons d m ih =>
    obtain ⟨k, u⟩ := d
    have ⟨h1, h2⟩ := (Memory.wf_cons ..).mp h
    simp only [Memory.write]
    split
    · next hlt =>
      refine (Memory.wf_cons ..).mpr ⟨fun c hc => ?_, h⟩
      rcases List.mem_cons.mp hc with rfl | hc
      · exact hlt
      · exact hlt.trans (h1 c hc)
    · split
      · next heq => subst heq; exact (Memory.wf_cons ..).mpr ⟨h1, h2⟩
      · refine (Memory.wf_cons ..).mpr ⟨fun c hc => ?_, ih h2⟩
        rcases Memory.mem_write hc with rfl | hc
        · show k < a; omega
        · exact h1 c hc

theorem Memory.read_ofListFrom (b : Nat) (vs : List α) (a : Nat) :
    Memory.read (Memory.ofListFrom b vs) a = if b ≤ a then vs[a - b]? else none := by
  induction vs generalizing b with
  | nil => simp [Memory.ofListFrom]
  | cons v vs ih =>
    simp only [Memory.ofListFrom, Memory.read_cons, ih]
    by_cases h : a = b
    · subst h; simp
    · rw [if_neg h]
      by_cases h' : b + 1 ≤ a
      · rw [if_pos h', if_pos (by omega), show a - b = (a - (b + 1)) + 1 by omega, List.getElem?_cons_succ]
      · rw [if_neg h', if_neg (by omega)]

/-- Reading a memory made of a list is indexing the list. -/
theorem Memory.read_ofList (vs : List α) (a : Nat) : Memory.read (Memory.ofList vs) a = vs[a]? := by
  simp [Memory.ofList, Memory.read_ofListFrom]

theorem Memory.mem_ofListFrom {b : Nat} {vs : List α} {c : Nat × α}
    (h : c ∈ Memory.ofListFrom b vs) : b ≤ c.1 := by
  induction vs generalizing b with
  | nil => simp [Memory.ofListFrom] at h
  | cons v vs ih =>
    rcases List.mem_cons.mp h with rfl | h
    · exact Nat.le_refl _
    · exact (Nat.le_succ b).trans (ih h)

/-- A memory made of a list is in canonical form. -/
theorem Memory.wf_ofListFrom (b : Nat) (vs : List α) : Memory.wf (Memory.ofListFrom b vs) = true := by
  induction vs generalizing b with
  | nil => rfl
  | cons v vs ih =>
    exact (Memory.wf_cons ..).mpr ⟨fun c hc => Memory.mem_ofListFrom hc, ih (b + 1)⟩

theorem Memory.wf_ofList (vs : List α) : Memory.wf (Memory.ofList vs) = true := Memory.wf_ofListFrom 0 vs

/-! #### Spans -/

theorem Memory.spans_ofList (vs : List α) : Memory.spans (Memory.ofList vs) vs.length := by
  intro a; simp [Memory.read_ofList]

theorem Memory.spans_nil : Memory.spans ([] : Memory α) 0 := by intro a; simp

theorem Memory.spans_write {m : Memory α} {n : Nat} (h : Memory.spans m n) (v : α) :
    Memory.spans (Memory.write m n v) (n + 1) := by
  intro a
  rw [Memory.read_write]
  split
  · next e => simp [e]
  · rw [h a]; omega

theorem Memory.spans_read {m : Memory α} {n : Nat} (h : Memory.spans m n) {a : Nat} (ha : a < n) :
    ∃ v, Memory.read m a = some v :=
  Option.isSome_iff_exists.mp ((h a).mpr ha)

/-- Nothing is listed from the end of a memory on. -/
theorem Memory.read_next (m : Memory α) {a : Nat} (h : Memory.next m ≤ a) : Memory.read m a = none := by
  induction m with
  | nil => rfl
  | cons d m ih =>
    obtain ⟨k, u⟩ := d
    have h' : max (k + 1) (Memory.next m) ≤ a := h
    rw [Memory.read_cons, if_neg (by omega), ih (by omega)]

/-- A memory that is not empty lists the address before its end. -/
theorem Memory.read_next_pred (m : Memory α) (h : Memory.next m ≠ 0) :
    (Memory.read m (Memory.next m - 1)).isSome = true := by
  induction m with
  | nil => exact absurd rfl h
  | cons d m ih =>
    obtain ⟨k, u⟩ := d
    have e : Memory.next ((k, u) :: m) = max (k + 1) (Memory.next m) := rfl
    rw [Memory.read_cons, e]
    split
    · rfl
    · next hk =>
      have hm : max (k + 1) (Memory.next m) = Memory.next m := by omega
      rw [hm]; exact ih (by omega)

/-- The end of a memory that spans n addresses is n. -/
theorem Memory.next_of_spans {m : Memory α} {n : Nat} (h : Memory.spans m n) : Memory.next m = n := by
  have h1 : ¬ Memory.next m < n := fun hlt => by
    have := (h (Memory.next m)).mpr hlt
    rw [Memory.read_next m (Nat.le_refl _)] at this
    simp at this
  by_cases h0 : Memory.next m = 0
  · omega
  · have := (h _).mp (Memory.read_next_pred m h0)
    omega

/-- Writing past the listed addresses moves the end there. -/
theorem Memory.next_write {m : Memory α} {a : Nat} (v : α) (h : Memory.next m ≤ a) :
    Memory.next (Memory.write m a v) = a + 1 := by
  induction m with
  | nil => exact Nat.max_eq_left (Nat.zero_le _)
  | cons d m ih =>
    obtain ⟨k, u⟩ := d
    have h' : max (k + 1) (Memory.next m) ≤ a := h
    simp only [Memory.write]
    rw [if_neg (by omega), if_neg (by omega)]
    show max (k + 1) (Memory.next (Memory.write m a v)) = a + 1
    rw [ih (by omega)]; omega

/-- A write at an unlisted address lists one more; at a listed one, the number of units stays. -/
theorem Memory.length_write (m : Memory α) (a : Nat) (v : α) :
    (Memory.write m a v).length ≤ m.length + 1 ∧ m.length ≤ (Memory.write m a v).length := by
  induction m with
  | nil => simp [Memory.write]
  | cons d m ih =>
    obtain ⟨k, u⟩ := d
    simp only [Memory.write]
    split
    · simp
    · split
      · simp
      · simp; omega

theorem Memory.length_write_fresh (m : Memory α) (a : Nat) (v : α) (h : Memory.read m a = none) :
    (Memory.write m a v).length = m.length + 1 := by
  induction m with
  | nil => rfl
  | cons d m ih =>
    obtain ⟨k, u⟩ := d
    rw [Memory.read_cons] at h
    simp only [Memory.write]
    split
    · rfl
    · split
      · next e => simp [e] at h
      · next e => simp only [List.length_cons, ih (by simpa [e] using h)]

/-- A canonical memory that spans n addresses is the list of its units. -/
theorem Memory.eq_ofListFrom {m : Memory α} {b n : Nat} (hw : Memory.wf m = true)
    (hs : ∀ a, (Memory.read m a).isSome = true ↔ b ≤ a ∧ a < n) :
    m = Memory.ofListFrom b (Memory.units m) := by
  induction m generalizing b with
  | nil => rfl
  | cons d m ih =>
    obtain ⟨k, u⟩ := d
    have ⟨h1, h2⟩ := (Memory.wf_cons ..).mp hw
    have hnone : ∀ a, a ≤ k → Memory.read m a = none := by
      intro a ha
      clear ih hs hw h2
      induction m with
      | nil => rfl
      | cons e m ih =>
        rw [Memory.read_cons]
        have := h1 e (List.mem_cons_self ..)
        rw [if_neg (by omega)]
        exact ih fun c hc => h1 c (List.mem_cons_of_mem _ hc)
    have hk := (hs k).mp (by simp [Memory.read_cons])
    have hb : k = b := by
      by_contra hne
      have := (hs b).mpr ⟨Nat.le_refl _, by omega⟩
      rw [Memory.read_cons, if_neg (Ne.symm hne), hnone b hk.1] at this
      simp at this
    subst hb
    show (k, u) :: m = (k, u) :: Memory.ofListFrom (k + 1) (Memory.units m)
    rw [← ih (b := k + 1) h2]
    intro a
    have := hs a
    rw [Memory.read_cons] at this
    by_cases e : a = k
    · subst e; simp [hnone a (Nat.le_refl _)]
    · rw [if_neg e] at this; rw [this]; omega

theorem Memory.eq_ofList {m : Memory α} {n : Nat} (hw : Memory.wf m = true) (hs : Memory.spans m n) :
    m = Memory.ofList (Memory.units m) :=
  Memory.eq_ofListFrom (n := n) hw fun a => by rw [hs a]; omega

/-! #### Appending to a memory made of a list -/

theorem Memory.write_ofListFrom {α : Type} (b : Nat) (L : List α) (v : α) :
    Memory.write (Memory.ofListFrom b L) (b + L.length) v = Memory.ofListFrom b (L ++ [v]) := by
  induction L generalizing b with
  | nil => rfl
  | cons x L ih =>
    simp only [Memory.ofListFrom, Memory.write, List.length_cons, List.cons_append]
    rw [if_neg (by omega), if_neg (by omega), show b + (L.length + 1) = b + 1 + L.length by omega, ih]

theorem units_ofListFrom {α : Type} (b : Nat) (L : List α) : Memory.units (Memory.ofListFrom b L) = L := by
  induction L generalizing b with
  | nil => rfl
  | cons x L ih => simp only [Memory.ofListFrom, Memory.units, List.map_cons]; rw [show List.map Prod.snd (Memory.ofListFrom (b+1) L) = L from ih _]

end Sys2Proof.Machine
end

