-- ==== Sys2Proof/Laws/Units.lean ====
section
/-! SUPPORT. The laws of the shared units (40_shared_functions.md): cache, coordinates, surface port, hash
and channel arithmetic. -/

namespace Sys2Proof.Machine

/-! #### The cache -/

theorem cacheRead_cacheWrite (q : Cache) (s : Slot) (v : U64) (t : Slot) :
    cacheRead (cacheWrite q s v) t = if t = s then v else cacheRead q t := by
  unfold cacheRead cacheWrite
  rw [Vector.getElem_set]
  by_cases h : t = s
  · simp [h]
  · have : s.toNat ≠ t.toNat := fun h' => h (BitVec.eq_of_toNat_eq h'.symm)
    simp [h, this]

theorem cacheRead_seed (s : Slot) : cacheRead cacheSeed s = 0 := by
  simp [cacheRead, cacheSeed]

/-- Two caches that read alike at every slot are equal. -/
theorem Cache.ext_read {q r : Cache} (h : ∀ s, cacheRead q s = cacheRead r s) : q = r := by
  apply Vector.ext
  intro i hi
  have := h (BitVec.ofNat 6 i)
  have e : (BitVec.ofNat 6 i).toNat = i := by simp; omega
  simpa [cacheRead, e] using this

/-! #### Coordinates and the surface port -/

/-- R142: the two maps of COORD give back the index they are given. -/
theorem xy2lin_lin2 (W : U32) (i : Nat) : xy2lin W (lin2x W i) (lin2y W i) = i := by
  simp only [xy2lin, lin2x, lin2y]
  exact Nat.div_add_mod' i W.toNat

theorem lin2_inRange (W H : U32) (i : Nat) :
    (lin2x W i < W.toNat ∧ lin2y W i < H.toNat) ↔ i < W.toNat * H.toNat := by
  simp only [lin2x, lin2y]
  constructor
  · rintro ⟨h1, h2⟩
    exact Nat.mul_comm W.toNat H.toNat ▸ (Nat.div_lt_iff_lt_mul (by omega)).mp h2
  · intro h
    have hw : 0 < W.toNat := Nat.pos_of_ne_zero fun h0 => by simp [h0] at h
    exact ⟨Nat.mod_lt _ hw, (Nat.div_lt_iff_lt_mul hw).mpr (Nat.mul_comm W.toNat H.toNat ▸ h)⟩

/-- `PixRead(i)` reads the unit of linear index i, inside the surface only. -/
theorem pixRead_eq (W H : U32) (m : Memory Pixel) (i : Nat) :
    pixRead W H m i = if i < W.toNat * H.toNat then Memory.read m i else none := by
  unfold pixRead surfRead
  rw [xy2lin_lin2]
  simp only [lin2_inRange]

theorem pixWrite_eq (W : U32) (m : Memory Pixel) (i : Nat) (px : Pixel) :
    pixWrite W m i px = Memory.write m i px := by
  simp [pixWrite, surfWrite, xy2lin_lin2]

theorem EncState.pixRead_eq (e : EncState) (i : Nat) :
    e.pixRead i = if i < e.N then Memory.read e.src i else none := Machine.pixRead_eq ..

theorem DecState.pixRead_eq (d : DecState) (i : Nat) :
    d.pixRead i = if i < d.N then Memory.read d.dst i else none := Machine.pixRead_eq ..

/-- A whole surface can be read at each of its positions. -/
theorem EncState.pixRead_whole {e : EncState} (h : Memory.spans e.src e.N) {i : Nat} (hi : i < e.N) :
    ∃ px, e.pixRead i = some px := by
  obtain ⟨px, h⟩ := Memory.spans_read h hi
  exact ⟨px, by rw [EncState.pixRead_eq, if_pos hi, h]⟩

theorem DecState.written_eq (d : DecState) (q : Nat) :
    d.written q = (decide (q < d.N) && (Memory.read d.dst q).isSome) := by
  unfold DecState.written
  rw [DecState.pixRead_eq]
  split <;> simp [*]

/-! #### Bytes and bits -/

theorem toByte_toNat (n : Nat) : (toByte n).toNat = n % 256 := by simp [toByte]

theorem bits_lt (b : Byte) (hi lo : Nat) : bits b hi lo < 2 ^ (hi + 1 - lo) :=
  Nat.mod_lt _ (Nat.two_pow_pos _)

theorem bits_tag (b : Byte) : bits b 7 6 = b.toNat / 64 := by
  simp only [bits, Nat.shiftRight_eq_div_pow]
  have := b.isLt
  omega

theorem bits_low6 (b : Byte) : bits b 5 0 = b.toNat % 64 := by
  simp [bits]

/-- Four bytes side by side, as a sum. -/
theorem or4_eq_add {a b d e : Nat} (hb : b < 256) (hd : d < 256) (he : e < 256) :
    (a <<< 24 ||| b <<< 16 ||| d <<< 8 ||| e) = a * 2 ^ 24 + b * 2 ^ 16 + d * 2 ^ 8 + e := by
  rw [Nat.or_assoc, Nat.or_assoc, ← Nat.shiftLeft_add_eq_or_of_lt (by omega) d,
    ← Nat.shiftLeft_add_eq_or_of_lt (by rw [Nat.shiftLeft_eq]; omega) b,
    ← Nat.shiftLeft_add_eq_or_of_lt (by simp only [Nat.shiftLeft_eq]; omega) a]
  simp only [Nat.shiftLeft_eq]
  omega

/-- R71: reading back the four big-endian bytes of a word. -/
theorem ofBe32_be32 (v : U32) :
    ofBe32 (toByte (v.toNat >>> 24)) (toByte (v.toNat >>> 16)) (toByte (v.toNat >>> 8)) (toByte v.toNat) = v := by
  have hv := v.isLt
  apply BitVec.eq_of_toNat_eq
  simp only [ofBe32, BitVec.toNat_ofNat, toByte_toNat, Nat.shiftRight_eq_div_pow]
  rw [or4_eq_add] <;> omega

theorem toByte_extract (v : U32) (k : Nat) : toByte (v.toNat >>> k) = v.extractLsb' k 8 := by
  apply BitVec.eq_of_toNat_eq; simp [toByte]

/-! #### Channel arithmetic -/

/-- R145: adding a delta wraps modulo 256. -/
theorem addDelta_toNat (p : Byte) (d : Int) : ((addDelta p d).toNat : Int) = (p.toNat + d) % 256 := by
  simp only [addDelta, wrap8, BitVec.toNat_ofInt]
  omega

/-- R146: in both modes `wrap8(prev + delta(cur, prev)) = cur`. -/
theorem addDelta_delta (mode : DeltaMode) (cur prev : Byte) :
    addDelta prev (delta mode cur prev) = cur := by
  apply BitVec.eq_of_toNat_eq
  have h := addDelta_toNat prev (delta mode cur prev)
  have h1 := cur.isLt
  have h2 := prev.isLt
  cases mode <;> simp only [delta, swrap8] at h ⊢ <;> omega

theorem inRange_iff (lo hi v : Int) : inRange lo hi v = true ↔ lo ≤ v ∧ v ≤ hi := by
  simp [inRange]

end Sys2Proof.Machine
end

