-- ==== Sys2Proof/Laws/Chunk.lean ====
section
/-! SUPPORT. What the decoder's shared operations and the six meanings can do: one lemma per operation, and
one inversion lemma for `exec`. -/

namespace Sys2Proof.Machine

theorem DecState.N_lt (d : DecState) : d.N < 2 ^ 64 := by
  have h1 := d.W.isLt
  have h2 := d.H.isLt
  have := Nat.mul_le_mul (Nat.le_sub_one_of_lt h1) (Nat.le_sub_one_of_lt h2)
  unfold DecState.N
  omega

theorem DecState.p_succ {d : DecState} (h : d.p.toNat < d.N) : (d.p + 1).toNat = d.p.toNat + 1 := by
  have := d.N_lt
  simp only [BitVec.toNat_add]
  simp
  omega

/-! #### One pixel -/

theorem put_ok {px : Pixel} {d : DecState} (h : d.p.toNat < d.N) :
    put px d = .ok { d with dst := Memory.write d.dst d.p.toNat px, p := d.p + 1 } := by
  simp [put, Nat.not_le.mpr h, pixWrite_eq]

theorem put_overflow {px : Pixel} {d : DecState} (h : d.N ≤ d.p.toNat) :
    put px d = .error .pixelOverflow := by
  simp [put, h]

theorem finishChunk_ok {k : Nat} {px : Pixel} {s : State} (h : s.dec.p.toNat < s.dec.N) :
    finishChunk k px s.dec = .ok (afterChunk k px s).dec := by
  have e : ∀ (q : U64) (q' : Cache), ({ s.dec with pos := q, cache := q' } : DecState).N = s.dec.N :=
    fun _ _ => rfl
  simp only [finishChunk, tail]
  rw [put_ok (by simpa [e] using h)]
  simp only [settlePhase, afterChunk]
  split <;> simp_all

theorem finishChunk_overflow {k : Nat} {px : Pixel} {d : DecState} (h : d.N ≤ d.p.toNat) :
    finishChunk k px d = .error .pixelOverflow := by
  simp only [finishChunk, tail]
  rw [put_overflow (by simpa [DecState.N] using h)]

/-- The end of a chunk either writes its pixel or overflows. -/
theorem finishChunk_cases (k : Nat) (px : Pixel) (s : State) :
    (s.dec.p.toNat < s.dec.N ∧ finishChunk k px s.dec = .ok (afterChunk k px s).dec) ∨
      (s.dec.N ≤ s.dec.p.toNat ∧ finishChunk k px s.dec = .error .pixelOverflow) := by
  rcases Nat.lt_or_ge s.dec.p.toNat s.dec.N with h | h
  · exact .inl ⟨h, finishChunk_ok h⟩
  · exact .inr ⟨h, finishChunk_overflow h⟩

theorem fits_iff (d : DecState) (k : Nat) : d.fits k = true ↔ d.pos.toNat + k + 8 ≤ d.len.toNat := by
  simp [DecState.fits]

theorem need_ok {k : Nat} {d : DecState} (h : d.pos.toNat + k + 8 ≤ d.len.toNat) : need k d = .ok d := by
  simp [need, (fits_iff d k).mpr h]

theorem need_truncated {k : Nat} {d : DecState} (h : d.len.toNat < d.pos.toNat + k + 8) :
    need k d = .error .truncatedChunk := by
  have : d.fits k = false := by simp [DecState.fits]; omega
  simp [need, this]

/-! #### Replays -/

/-- The replays of a RUN that stay inside the surface write their positions and no other (R216, R219). -/
theorem replay_ok (n : Nat) (px : Pixel) (d : DecState) (h : d.p.toNat + n ≤ d.N) :
    ∃ m, replay n px d = .ok { d with dst := m, p := d.p + BitVec.ofNat 64 n } ∧
      (∀ q, Memory.read m q =
        if d.p.toNat ≤ q ∧ q < d.p.toNat + n then some px else Memory.read d.dst q) ∧
      (Memory.wf d.dst = true → Memory.wf m = true) := by
  induction n generalizing d with
  | zero => exact ⟨d.dst, by simp [replay], fun q => by rw [if_neg (by omega)], id⟩
  | succ n ih =>
    have hp : d.p.toNat < d.N := by omega
    have hs := d.p_succ hp
    let d' : DecState := { d with dst := Memory.write d.dst d.p.toNat px, p := d.p + 1 }
    have hN : d'.N = d.N := rfl
    have hp' : d'.p.toNat = d.p.toNat + 1 := hs
    obtain ⟨m, h1, h2, h3⟩ := ih d' (by omega)
    refine ⟨m, ?_, fun q => ?_, fun hw => h3 (Memory.wf_write _ _ hw)⟩
    · simp only [replay, put_ok hp]
      rw [h1]
      have : d'.p + BitVec.ofNat 64 n = d.p + BitVec.ofNat 64 (n + 1) := by
        show d.p + 1 + BitVec.ofNat 64 n = _
        apply BitVec.eq_of_toNat_eq
        simp [BitVec.toNat_add]
        omega
      rw [this]
    · rw [h2 q, hp', Memory.read_write]
      split
      · rw [if_pos (by omega)]
      · split
        · rw [if_pos (by omega)]
        · rw [if_neg (by omega)]

theorem replay_overflow (n : Nat) (px : Pixel) (d : DecState) (h : d.N < d.p.toNat + (n + 1)) :
    replay (n + 1) px d = .error .pixelOverflow := by
  induction n generalizing d with
  | zero => simp only [replay]; rw [put_overflow (by omega)]
  | succ n ih =>
    rw [replay]
    rcases Nat.lt_or_ge d.p.toNat d.N with hp | hp
    · rw [put_ok hp]
      have hs := d.p_succ hp
      exact ih _ (by show d.N < (d.p + 1).toNat + (n + 1); omega)
    · rw [put_overflow hp]

/-! #### The six meanings -/

/-- The decoder after a chunk that wrote `pixelCount i` copies of px and left the surface m. -/
def chunkEnd (i : Instr) (px : Pixel) (m : Memory Pixel) (d : DecState) : DecState :=
  { d with
    pos := d.pos + BitVec.ofNat 64 i.length
    cache := cacheWrite d.cache (pixelHash px) (d.p + BitVec.ofNat 64 (pixelCount i - 1))
    dst := m
    p := d.p + BitVec.ofNat 64 (pixelCount i)
    prev := px
    phase :=
      if d.len.toNat ≤ (d.pos + BitVec.ofNat 64 i.length).toNat + 8 then .finish else d.phase }

/-- What a chunk that raises nothing does to the decoder: it fits the surface, it writes `pixelCount i` copies
of one pixel from `dec.p` on, and it leaves `chunkEnd`. -/
def ChunkDone (i : Instr) (px : Pixel) (d d' : DecState) : Prop :=
  ∃ m, d' = chunkEnd i px m d ∧ d.p.toNat + pixelCount i ≤ d.N ∧
    (∀ q, Memory.read m q =
      if d.p.toNat ≤ q ∧ q < d.p.toNat + pixelCount i then some px else Memory.read d.dst q) ∧
    (Memory.wf d.dst = true → Memory.wf m = true)

/-- The pixel a chunk reconstructs from the decoder's state (R211 to R216); none for an IDX whose reference
is unwritten. -/
def chunkPixel (i : Instr) (d : DecState) : Option Pixel :=
  match i with
  | .idx slot => d.pixRead (cacheRead d.cache slot).toNat
  | .diff dr dg db => some (diffPixel d.prev dr dg db)
  | .luma dg drg dbg => some (lumaPixel d.prev dg drg dbg)
  | .run _ => some d.prev
  | .rgb r g b => some (rgbPixel d.prev r g b)
  | .rgba r g b a => some ⟨r, g, b, a⟩

theorem chunkDone_afterChunk {i : Instr} (hc : pixelCount i = 1) (px : Pixel) (s : State)
    (h : s.dec.p.toNat < s.dec.N) : ChunkDone i px s.dec (afterChunk i.length px s).dec := by
  refine ⟨Memory.write s.dec.dst s.dec.p.toNat px, ?_, by omega, fun q => ?_, Memory.wf_write _ _⟩
  · simp [afterChunk, chunkEnd, hc]
  · rw [Memory.read_write, hc]
    split
    · rw [if_pos (by omega)]
    · rw [if_neg (by omega)]

theorem chunkDone_run {n : Nat} (hn : 1 ≤ n) (d d1 : DecState) (m : Memory Pixel)
    (hd1 : d1 = { d with dst := m, p := d.p + BitVec.ofNat 64 (n - 1) })
    (hm : ∀ q, Memory.read m q =
      if d.p.toNat ≤ q ∧ q < d.p.toNat + (n - 1) then some d.prev else Memory.read d.dst q)
    (hw : Memory.wf d.dst = true → Memory.wf m = true) (h : d.p.toNat + n ≤ d.N) (s1 : State)
    (hs1 : s1.dec = d1) : ChunkDone (.run n) d.prev d (afterChunk 1 d.prev s1).dec := by
  have hN := d.N_lt
  have hp : (d.p + BitVec.ofNat 64 (n - 1)).toNat = d.p.toNat + (n - 1) := by
    simp [BitVec.toNat_add]; omega
  refine ⟨Memory.write m (d.p.toNat + (n - 1)) d.prev, ?_, h, fun q => ?_, fun w => Memory.wf_write _ _ (hw w)⟩
  · simp only [afterChunk, hs1, hd1, hp, chunkEnd, pixelCount, Instr.length]
    have : d.p + BitVec.ofNat 64 (n - 1) + 1 = d.p + BitVec.ofNat 64 n := by
      apply BitVec.eq_of_toNat_eq
      simp [BitVec.toNat_add]
      omega
    rw [this]
    rfl
  · show _ = if d.p.toNat ≤ q ∧ q < d.p.toNat + n then some d.prev else Memory.read d.dst q
    rw [Memory.read_write, hm]
    split
    · rw [if_pos (by omega)]
    · split
      · rw [if_pos (by omega)]
      · rw [if_neg (by omega)]

/-- Inversion of `exec`: a well-formed chunk either raises a cause at the chunk's start, or is done, with the
pixel its operands reconstruct. -/
theorem exec_cases {i : Instr} (hw : i.wf = true) (s : State) :
    (∃ c, exec i s = .next (raiseFormatError c s.dec.pos s)) ∨
      ∃ px d, exec i s = .next { s with dec := d } ∧ chunkPixel i s.dec = some px ∧ ChunkDone i px s.dec d := by
  have one : ∀ (i : Instr) (px : Pixel), pixelCount i = 1 → chunkPixel i s.dec = some px →
      exec i s = closeChunk (finishChunk i.length px s.dec) s →
      (∃ c, exec i s = .next (raiseFormatError c s.dec.pos s)) ∨
        ∃ px d, exec i s = .next { s with dec := d } ∧ chunkPixel i s.dec = some px ∧ ChunkDone i px s.dec d := by
    intro i px hc hpx he
    rcases finishChunk_cases i.length px s with ⟨h, h'⟩ | ⟨-, h'⟩
    · exact .inr ⟨px, _, by rw [he, h']; rfl, hpx, chunkDone_afterChunk hc px s h⟩
    · exact .inl ⟨_, by rw [he, h']; rfl⟩
  have need_or : ∀ (i : Instr) (k : Nat) (f : DecState → Except Cause DecState),
      exec i s = closeChunk ((need k s.dec).bind f) s →
      (∃ c, exec i s = .next (raiseFormatError c s.dec.pos s)) ∨ exec i s = closeChunk (f s.dec) s := by
    intro i k f he
    rcases Nat.lt_or_ge s.dec.len.toNat (s.dec.pos.toNat + k + 8) with h | h
    · exact .inl ⟨_, by rw [he, need_truncated h]; rfl⟩
    · exact .inr (by rw [he, need_ok h]; rfl)
  cases i with
  | idx slot =>
    cases hr : s.dec.pixRead (cacheRead s.dec.cache slot).toNat with
    | none => exact .inl ⟨.unwrittenRef, by simp [exec, execIdx, readBack, hr, Except.bind, closeChunk]⟩
    | some px => exact one _ px rfl hr (by simp [exec, execIdx, readBack, hr, Except.bind, Instr.length])
  | diff dr dg db => exact one _ _ rfl rfl rfl
  | luma dg drg dbg =>
    rcases need_or (.luma dg drg dbg) 2 (fun d => finishChunk 2 (lumaPixel d.prev dg drg dbg) d) rfl with h | h
    · exact .inl h
    · exact one _ _ rfl rfl h
  | rgb r g b =>
    rcases need_or (.rgb r g b) 4 (fun d => finishChunk 4 (rgbPixel d.prev r g b) d) rfl with h | h
    · exact .inl h
    · exact one _ _ rfl rfl h
  | rgba r g b a =>
    rcases need_or (.rgba r g b a) 5 (fun d => finishChunk 5 ⟨r, g, b, a⟩ d) rfl with h | h
    · exact .inl h
    · exact one _ _ rfl rfl h
  | run n =>
    have hn : 1 ≤ n := by simp [Instr.wf] at hw; omega
    rcases Nat.lt_or_ge s.dec.N (s.dec.p.toNat + (n - 1)) with h | h
    · rcases Nat.eq_zero_or_pos (n - 1) with h0 | h0
      · refine .inl ⟨.pixelOverflow, ?_⟩
        simp only [exec, execRun, h0, replay, Except.bind]
        rw [finishChunk_overflow (by omega)]
        rfl
      · refine .inl ⟨.pixelOverflow, ?_⟩
        have := replay_overflow (n - 2) s.dec.prev s.dec (by omega)
        rw [show n - 2 + 1 = n - 1 by omega] at this
        simp only [exec, execRun, this, Except.bind]
        rfl
    · obtain ⟨m, h1, h2, h3⟩ := replay_ok (n - 1) s.dec.prev s.dec h
      let d1 : DecState := { s.dec with dst := m, p := s.dec.p + BitVec.ofNat 64 (n - 1) }
      let s1 : State := { s with dec := d1 }
      have hN := s.dec.N_lt
      have hp : d1.p.toNat = s.dec.p.toNat + (n - 1) := by
        show (s.dec.p + BitVec.ofNat 64 (n - 1)).toNat = _
        simp [BitVec.toNat_add]; omega
      have he : exec (.run n) s = closeChunk (finishChunk 1 s.dec.prev s1.dec) s := by
        simp only [exec, execRun, h1, Except.bind]; rfl
      rcases finishChunk_cases 1 s.dec.prev s1 with ⟨h4, h5⟩ | ⟨-, h5⟩
      · have h4' : d1.p.toNat < s.dec.N := h4
        exact .inr ⟨s.dec.prev, _, by rw [he, h5]; rfl, rfl,
          chunkDone_run hn s.dec d1 m rfl h2 h3 (by omega) s1 rfl⟩
      · exact .inl ⟨_, by rw [he, h5]; rfl⟩

/-- A cause a chunk raises leaves the latched header valid (R260). -/
theorem exec_latched {i : Instr} {s : State} {c : Cause}
    (h : exec i s = .next (raiseFormatError c s.dec.pos s)) : latchedBy c = true := by
  have key : ∀ r, closeChunk r s = .next (raiseFormatError c s.dec.pos s) →
      (∀ e, r = .error e → latchedBy e = true) → latchedBy c = true := by
    intro r h1 h2
    unfold closeChunk at h1
    split at h1
    · have := congrArg (fun t : State => t.draws) (Host.Outcome.next.inj h1)
      simp at this
    · next e =>
      have h3 := congrArg (fun t : State => t.dec.cause) (Host.Outcome.next.inj h1)
      have h4 := h2 e rfl
      simp only [raiseFormatError_dec_cause] at h3
      cases e <;> cases c <;> simp [latchedBy, causeCode] at *
  have hput : ∀ px d e, put px d = .error e → latchedBy e = true := by
    intro px d e h
    unfold put at h
    split at h
    · rw [← Except.error.inj h]; rfl
    · simp at h
  have fin : ∀ k px d e, finishChunk k px d = .error e → latchedBy e = true := by
    intro k px d e h
    simp only [finishChunk, tail] at h
    split at h
    · next h' =>
      split at h'
      · next h'' => rw [← Except.error.inj h, ← Except.error.inj h']; exact hput _ _ _ h''
      · simp at h'
    · simp at h
  have rep : ∀ n px d e, replay n px d = .error e → latchedBy e = true := by
    intro n px d e h
    induction n generalizing d with
    | zero => simp [replay] at h
    | succ n ih =>
      rw [replay] at h
      split at h
      · next h' => rw [← Except.error.inj h]; exact hput _ _ _ h'
      · exact ih _ h
  have nd : ∀ (k : Nat) (f : DecState → Except Cause DecState) (e : Cause),
      ((need k s.dec).bind f) = .error e → (∀ d e, f d = .error e → latchedBy e = true) →
      latchedBy e = true := by
    intro k f e h h'
    unfold need at h
    split at h
    · exact h' _ _ h
    · rw [← Except.error.inj h]; rfl
  cases i with
  | idx slot =>
    refine key _ h fun e he => ?_
    unfold readBack at he
    split at he
    · rw [← Except.error.inj he]; rfl
    · exact fin _ _ _ _ he
  | diff dr dg db => exact key _ h fun e he => fin _ _ _ _ he
  | luma dg drg dbg => exact key _ h fun e he => nd _ _ _ he fun _ _ h => fin _ _ _ _ h
  | run n =>
    refine key _ h fun e he => ?_
    cases hr : replay (n - 1) s.dec.prev s.dec with
    | ok d => rw [hr] at he; exact fin _ _ _ _ he
    | error e' => rw [hr] at he; rw [← Except.error.inj he]; exact rep _ _ _ _ hr
  | rgb r g b => exact key _ h fun e he => nd _ _ _ he fun _ _ h => fin _ _ _ _ h
  | rgba r g b a => exact key _ h fun e he => nd _ _ _ he fun _ _ h => fin _ _ _ _ h

/-- A chunk that raises PIXEL_OVERFLOW, said from its operands (R254). -/
theorem execRun_overflow {n : Nat} (hn : 1 ≤ n) (s : State) (h : s.dec.N < s.dec.p.toNat + n) :
    exec (.run n) s = .next (raiseFormatError .pixelOverflow s.dec.pos s) := by
  rcases Nat.lt_or_ge s.dec.N (s.dec.p.toNat + (n - 1)) with h' | h'
  · rcases Nat.eq_zero_or_pos (n - 1) with h0 | h0
    · simp only [exec, execRun, h0, replay, Except.bind]
      rw [finishChunk_overflow (by omega)]
      rfl
    · have := replay_overflow (n - 2) s.dec.prev s.dec (by omega)
      rw [show n - 2 + 1 = n - 1 by omega] at this
      simp only [exec, execRun, this, Except.bind]
      rfl
  · obtain ⟨m, h1, -, -⟩ := replay_ok (n - 1) s.dec.prev s.dec h'
    have hN := s.dec.N_lt
    simp only [exec, execRun, h1, Except.bind]
    rw [finishChunk_overflow]
    · rfl
    · show s.dec.N ≤ (s.dec.p + BitVec.ofNat 64 (n - 1)).toNat
      simp [BitVec.toNat_add]; omega

/-! #### Chunks that raise nothing -/

theorem length_pos (i : Instr) : 0 < i.length := by cases i <;> simp [Instr.length]

theorem length_le (i : Instr) : i.length ≤ 5 := by cases i <;> simp [Instr.length]

theorem pixelCount_pos {i : Instr} (hw : i.wf = true) : 0 < pixelCount i := by
  cases i <;> simp_all [pixelCount, Instr.wf]; omega

/-- A chunk that fits, whose reference is written and whose pixels fit the surface, is done. -/
theorem exec_ok {i : Instr} {px : Pixel} {s : State} (hw : i.wf = true)
    (hl : s.dec.pos.toNat + i.length + 8 ≤ s.dec.len.toNat) (hpx : chunkPixel i s.dec = some px)
    (hN : s.dec.p.toNat + pixelCount i ≤ s.dec.N) :
    ∃ d, exec i s = .next { s with dec := d } ∧ ChunkDone i px s.dec d := by
  have fin : ∀ k px, s.dec.p.toNat + 1 ≤ s.dec.N → 
      closeChunk (finishChunk k px s.dec) s = .next { s with dec := (afterChunk k px s).dec } := by
    intro k px h; rw [finishChunk_ok (by omega)]; rfl
  rcases exec_cases hw s with ⟨c, hc⟩ | ⟨px', d, h1, h2, h3⟩
  · exfalso
    have no : ∀ u, exec i s = .next { s with dec := u } → False := by
      intro u hu
      have := congrArg (fun t : State => t.draws) (Host.Outcome.next.inj (hc.symm.trans hu))
      simp at this
    cases i with
    | idx slot =>
      have hpx' : s.dec.pixRead (cacheRead s.dec.cache slot).toNat = some px := hpx
      refine no (afterChunk 1 px s).dec ?_
      simp only [exec, execIdx, readBack, hpx', Except.bind]
      exact fin 1 px hN
    | diff dr dg db => exact no _ (fin 1 _ hN)
    | luma dg drg dbg =>
      refine no (afterChunk 2 (lumaPixel s.dec.prev dg drg dbg) s).dec ?_
      simp only [exec, execLuma, need_ok (k := 2) hl, Except.bind]; exact fin 2 _ hN
    | rgb r g b =>
      refine no (afterChunk 4 (rgbPixel s.dec.prev r g b) s).dec ?_
      simp only [exec, execRgb, need_ok (k := 4) hl, Except.bind]; exact fin 4 _ hN
    | rgba r g b a =>
      refine no (afterChunk 5 ⟨r, g, b, a⟩ s).dec ?_
      simp only [exec, execRgba, need_ok (k := 5) hl, Except.bind]; exact fin 5 _ hN
    | run n =>
      have hn : 1 ≤ n := by simp [Instr.wf] at hw; omega
      have hN' : s.dec.p.toNat + n ≤ s.dec.N := hN
      have hNlt := s.dec.N_lt
      obtain ⟨m, h1, -, -⟩ := replay_ok (n - 1) s.dec.prev s.dec (by omega)
      let s1 : State := { s with dec := { s.dec with dst := m, p := s.dec.p + BitVec.ofNat 64 (n - 1) } }
      have h4 : s1.dec.p.toNat < s1.dec.N := by
        show (s.dec.p + BitVec.ofNat 64 (n - 1)).toNat < s.dec.N
        simp [BitVec.toNat_add]; omega
      refine no (afterChunk 1 s.dec.prev s1).dec ?_
      have h5 := finishChunk_ok (k := 1) (px := s.dec.prev) h4
      simp only [exec, execRun, h1, Except.bind]
      show closeChunk (finishChunk 1 s.dec.prev s1.dec) s = _
      rw [h5]; rfl
  · rw [hpx] at h2
    obtain rfl := Option.some.inj h2
    exact ⟨d, h1, h3⟩

end Sys2Proof.Machine
end

