-- ==== Sys2Proof/Laws/Encoder.lean ====
section
/-! SUPPORT. What the encoder's shared operations and its steps can do: appending bytes, the pending run, and
the inversion of the pixel step. -/

namespace Sys2Proof.Machine

theorem EncState.N_lt (e : EncState) : e.N < 2 ^ 64 := by
  have h1 := e.W.isLt
  have h2 := e.H.isLt
  have := Nat.mul_le_mul (Nat.le_sub_one_of_lt h1) (Nat.le_sub_one_of_lt h2)
  unfold EncState.N
  omega

theorem EncState.i_succ {e : EncState} (h : e.i.toNat < e.N) : (e.i + 1).toNat = e.i.toNat + 1 := by
  have := e.N_lt
  simp only [BitVec.toNat_add]
  simp
  omega

/-! #### Appending -/

theorem emit_append (as bs : List Byte) (e : EncState) : emit (as ++ bs) e = emit bs (emit as e) := by
  induction as generalizing e with
  | nil => rfl
  | cons a as ih => exact ih _

/-- Appending touches the buffer and its length register only. -/
theorem emit_eq (bs : List Byte) (e : EncState) :
    emit bs e = { e with dst := (emit bs e).dst, opos := (emit bs e).opos } := by
  have h : ∀ x : EncState, x = ⟨x.phase, x.W, x.H, x.i, x.prev, x.run, x.cache, x.opos, x.src, x.dst⟩ :=
    fun _ => rfl
  rw [h (emit bs e)]
  simp

/-- Appending does not look at the registers it leaves. -/
theorem emit_congr (bs : List Byte) {e f : EncState} (hd : e.dst = f.dst) (ho : e.opos = f.opos) :
    (emit bs e).dst = (emit bs f).dst ∧ (emit bs e).opos = (emit bs f).opos := by
  induction bs generalizing e f with
  | nil => exact ⟨hd, ho⟩
  | cons b bs ih => exact ih (by simp [bufAppend, hd, ho]) (by simp [bufAppend, hd, ho])

/-- What one append does (R15, R77, R80): one more byte, at the end of the buffer. -/
theorem bufAppend_length (v : Byte) (e : EncState) : (bufAppend v e).dst.length = e.dst.length + 1 :=
  Memory.length_write_fresh _ _ _ (Memory.read_next _ (Nat.le_refl _))

theorem bufAppend_read (v : Byte) (e : EncState) (a : Nat) :
    Memory.read (bufAppend v e).dst a = if a = Memory.next e.dst then some v else Memory.read e.dst a :=
  Memory.read_write ..

theorem bufAppend_next (v : Byte) (e : EncState) : Memory.next (bufAppend v e).dst = Memory.next e.dst + 1 :=
  Memory.next_write _ (Nat.le_refl _)

theorem bufAppend_opos {v : Byte} {e : EncState} (h : e.dst.length + 1 < 2 ^ 64) :
    (bufAppend v e).opos = e.opos + 1 := by
  rw [← bufAppend_length v e] at h
  exact if_pos h

/-- Appending lengthens the buffer by exactly the bytes appended. -/
theorem length_emit (bs : List Byte) (e : EncState) : (emit bs e).dst.length = e.dst.length + bs.length := by
  induction bs generalizing e with
  | nil => rfl
  | cons b bs ih => rw [emit, ih, bufAppend_length, List.length_cons]; omega

/-- The length register after appending, as long as 64 bits count the buffer's bytes. -/
theorem emit_opos {bs : List Byte} {e : EncState} (h : e.dst.length + bs.length < 2 ^ 64) :
    (emit bs e).opos = e.opos + BitVec.ofNat 64 bs.length := by
  induction bs generalizing e with
  | nil => simp [emit]
  | cons b bs ih =>
    simp only [List.length_cons] at h ⊢
    rw [emit, ih (by rw [bufAppend_length]; omega), bufAppend_opos (by omega)]
    bv_omega

/-- The buffer after appending, read at each address. -/
theorem emit_read (bs : List Byte) (e : EncState) (a : Nat) :
    Memory.read (emit bs e).dst a =
      if Memory.next e.dst ≤ a ∧ a < Memory.next e.dst + bs.length then bs[a - Memory.next e.dst]?
      else Memory.read e.dst a := by
  induction bs generalizing e with
  | nil => simp only [emit, List.length_nil]; rw [if_neg (by omega)]
  | cons b bs ih =>
    rw [emit, ih, bufAppend_next, bufAppend_read, List.length_cons]
    by_cases ha : a = Memory.next e.dst
    · subst ha
      rw [if_neg (by omega), if_pos rfl, if_pos (by omega)]
      simp
    · rw [if_neg ha]
      by_cases hb : Memory.next e.dst + 1 ≤ a ∧ a < Memory.next e.dst + 1 + bs.length
      · rw [if_pos hb, if_pos (by omega), show a - Memory.next e.dst = (a - (Memory.next e.dst + 1)) + 1 by omega,
          List.getElem?_cons_succ]
      · rw [if_neg hb, if_neg (by omega)]

/-- No appended byte is ever rewritten (R80). -/
theorem emit_keeps {bs : List Byte} {e : EncState} {a : Nat} {b : Byte} (h : Memory.read e.dst a = some b) :
    Memory.read (emit bs e).dst a = some b := by
  rw [emit_read, if_neg, h]
  intro h1
  rw [Memory.read_next _ h1.1] at h
  simp at h

theorem wf_emit (bs : List Byte) {e : EncState} (h : Memory.wf e.dst = true) :
    Memory.wf (emit bs e).dst = true := by
  induction bs generalizing e with
  | nil => exact h
  | cons b bs ih => exact ih (Memory.wf_write _ _ h)

theorem counted_bufAppend {e : EncState} (v : Byte) (h : Counted e) : Counted (bufAppend v e) := by
  obtain ⟨h1, h2⟩ := h
  unfold Counted
  rw [bufAppend_length]
  refine ⟨?_, fun hl => ?_⟩
  · show Memory.spans (Memory.write e.dst (Memory.next e.dst) v) _
    rw [Memory.next_of_spans h1]; exact Memory.spans_write h1 v
  · rw [bufAppend_opos hl]
    have := h2 (by omega)
    simp only [BitVec.toNat_add, this]
    simp; omega

theorem counted_emit {e : EncState} (bs : List Byte) (h : Counted e) : Counted (emit bs e) := by
  induction bs generalizing e with
  | nil => exact h
  | cons b bs ih => exact ih (counted_bufAppend b h)

/-! #### The pending run -/

theorem flushRun_eq (e : EncState) : flushRun e = { emit (owedRun e) e with run := 0 } := by
  unfold flushRun owedRun
  split
  · next h => rw [← h]; rfl
  · rfl

theorem length_owedRun (e : EncState) : (owedRun e).length = if e.run = 0 then 0 else 1 := by
  unfold owedRun; split <;> rfl

theorem runByte_62 : runByte 62 = 0xFD := by decide

/-! #### The pixel step -/

/-- A run pixel's step (R163, R164, R167, R168). -/
theorem pixelEffect_run (mode : DeltaMode) (s : State) :
    pixelEffect mode s.enc.prev s.enc =
      some (afterPixel (if s.enc.run + 1 = 62 then [0xFD] else [])
        (if s.enc.run + 1 = 62 then 0 else s.enc.run + 1) s.enc.prev s).enc := by
  simp only [pixelEffect, if_true, countRun, afterPixel]
  split
  · simp [closePixel, encode, Config.runMax, runByte_62, EncState.N]
  · simp [closePixel, emit, EncState.N]

/-- A differing pixel's step (R165 to R168). -/
theorem pixelEffect_differs {mode : DeltaMode} {px : Pixel} {s : State} {hit : Bool} (h : px ≠ s.enc.prev)
    (hh : cacheHit px s.enc = some hit) :
    pixelEffect mode px s.enc =
      some (afterPixel (owedRun s.enc ++ encode (classify mode hit px s.enc.prev)) 0 px s).enc := by
  have hc := emit_congr (encode (classify mode hit px s.enc.prev)) (e := flushRun s.enc)
    (f := emit (owedRun s.enc) s.enc) (by simp [flushRun_eq]) (by simp [flushRun_eq])
  rw [← emit_append] at hc
  have hc' : codePixel mode hit px s.enc =
      { emit (owedRun s.enc ++ encode (classify mode hit px s.enc.prev)) s.enc with run := 0 } := by
    rw [codePixel, emit_eq, emit_eq (_ ++ _), hc.1, hc.2]
    simp [flushRun_eq]
  simp only [pixelEffect, if_neg h, hh, Option.map_some, hc', afterPixel]
  simp [closePixel, EncState.N]

theorem encode_ne_nil (i : Instr) : encode i ≠ [] := by cases i <;> simp [encode]

theorem length_encode (i : Instr) : (encode i).length = i.length := by cases i <;> rfl

theorem length_classify (mode : DeltaMode) (hit : Bool) (px prev : Pixel) :
    (classify mode hit px prev).length ≤ 5 := by
  unfold classify diffChunk lumaChunk
  repeat' split
  all_goals simp [Instr.length]

/-- Inversion of the pixel step: it reads its pixel, and either counts a run pixel or codes a differing one. -/
theorem encPixelStep_cases {s t : State} (h : encPixelStep s = .next t) :
    ∃ px, s.enc.pixRead s.enc.i.toNat = some px ∧
      ((px = s.enc.prev ∧ s.enc.run + 1 = 62 ∧ t = afterPixel [0xFD] 0 px s) ∨
        (px = s.enc.prev ∧ s.enc.run + 1 ≠ 62 ∧ t = afterPixel [] (s.enc.run + 1) px s) ∨
        ∃ hit, px ≠ s.enc.prev ∧ cacheHit px s.enc = some hit ∧
          t = afterPixel (owedRun s.enc ++ encode (classify s.cfg.deltaMode hit px s.enc.prev)) 0 px s) := by
  unfold encPixelStep at h
  cases hp : s.enc.pixRead s.enc.i.toNat with
  | none => simp [hp] at h
  | some px =>
    refine ⟨px, rfl, ?_⟩
    simp only [hp, Option.bind_some] at h
    by_cases he : px = s.enc.prev
    · subst he
      rw [pixelEffect_run] at h
      by_cases h62 : s.enc.run + 1 = 62
      · left
        simp only [h62, if_true] at h
        exact ⟨rfl, h62, (Host.Outcome.next.inj h).symm⟩
      · right; left
        simp only [h62, if_false] at h
        exact ⟨rfl, h62, (Host.Outcome.next.inj h).symm⟩
    · right; right
      cases hh : cacheHit px s.enc with
      | none => simp [pixelEffect, he, hh] at h
      | some hit =>
        rw [pixelEffect_differs he hh] at h
        exact ⟨hit, he, rfl, (Host.Outcome.next.inj h).symm⟩

/-! #### Counting and the single steps -/

theorem afterPixel_pixRead (bs : List Byte) (run : BitVec 6) (px : Pixel) (s : State) (k : Nat) :
    (afterPixel bs run px s).enc.pixRead k = s.enc.pixRead k := by
  simp [EncState.pixRead, afterPixel]

theorem afterPixel_N (bs : List Byte) (run : BitVec 6) (px : Pixel) (s : State) :
    (afterPixel bs run px s).enc.N = s.enc.N := by
  simp [EncState.N, afterPixel]

theorem counted_congr {e f : EncState} (hd : e.dst = f.dst) (ho : e.opos = f.opos) (h : Counted e) : Counted f := by
  unfold Counted at *; rwa [← hd, ← ho]

theorem length_headerBytes (m : Magic) (W H : U32) (ch cs : Byte) : (headerBytes m W H ch cs).length = 14 := rfl

theorem encHeader_dst (m : Magic) (e : EncState) :
    (encHeader m e).dst = (emit (headerBytes m e.W e.H Config.channelsOut Config.colorspaceOut) e).dst := by
  simp only [encHeader]

theorem encHeader_opos (m : Magic) (e : EncState) :
    (encHeader m e).opos = (emit (headerBytes m e.W e.H Config.channelsOut Config.colorspaceOut) e).opos := by
  simp only [encHeader]

theorem encFinish_dst (e : EncState) : (encFinish e).dst = (emit Config.endMarker (flushRun e)).dst := by
  simp only [encFinish]

theorem encFinish_opos (e : EncState) : (encFinish e).opos = (emit Config.endMarker (flushRun e)).opos := by
  simp only [encFinish]

theorem counted_flushRun {e : EncState} (h : Counted e) : Counted (flushRun e) := by
  refine counted_congr (e := emit (owedRun e) e) ?_ ?_ (counted_emit _ h) <;> rw [flushRun_eq]

theorem counted_encFinish {e : EncState} (h : Counted e) : Counted (encFinish e) :=
  counted_congr (encFinish_dst e).symm (encFinish_opos e).symm (counted_emit _ (counted_flushRun h))

theorem encStep_run {s : State} (hp : s.enc.phase = .pixels) (hr : s.enc.pixRead s.enc.i.toNat = some s.enc.prev) :
    encStep s = .next (afterPixel (if s.enc.run + 1 = 62 then [0xFD] else [])
        (if s.enc.run + 1 = 62 then 0 else s.enc.run + 1) s.enc.prev s) := by
  simp only [encStep, hp, encPixelStep, hr, Option.bind_some, pixelEffect_run]
  rfl

theorem encStep_differs {px : Pixel} {s : State} {hit : Bool} (hp : s.enc.phase = .pixels)
    (hr : s.enc.pixRead s.enc.i.toNat = some px) (h : px ≠ s.enc.prev) (hh : cacheHit px s.enc = some hit) :
    encStep s = .next (afterPixel (owedRun s.enc ++ encode (classify s.cfg.deltaMode hit px s.enc.prev)) 0 px s) := by
  simp only [encStep, hp, encPixelStep, hr, Option.bind_some, pixelEffect_differs h hh]
  rfl

theorem cacheHit_eq {px : Pixel} {e : EncState}
    (h : e.i = 0 ∨ (e.pixRead (cacheRead e.cache (pixelHash px)).toNat).isSome = true) :
    cacheHit px e = some (decide (e.i ≠ 0 ∧ e.pixRead (cacheRead e.cache (pixelHash px)).toNat = some px)) := by
  unfold cacheHit
  by_cases h0 : e.i = 0
  · simp [h0]
  · obtain ⟨q, hq⟩ := Option.isSome_iff_exists.mp (h.resolve_left h0)
    rw [if_neg h0, hq]
    have : (e.i ≠ 0) = True := by simpa using h0
    simp only [this, true_and, Option.map_some, Option.some.injEq]

/-- The encoder's buffer as a list of bytes. -/
def Buffered (L : List Byte) (e : EncState) : Prop := e.dst = Memory.ofList L

theorem buffered_emit {L : List Byte} (bs : List Byte) {e : EncState} (h : Buffered L e) :
    Buffered (L ++ bs) (emit bs e) := by
  induction bs generalizing L e with
  | nil => simpa [emit] using h
  | cons b bs ih =>
    have : Buffered (L ++ [b]) (bufAppend b e) := by
      show Memory.write e.dst (Memory.next e.dst) b = _
      rw [show e.dst = Memory.ofList L from h, Memory.next_of_spans (Memory.spans_ofList L)]
      have := Memory.write_ofListFrom 0 L b
      rwa [Nat.zero_add] at this
    simpa [emit] using ih this

end Sys2Proof.Machine
end

