-- ==== Sys2Proof/Laws/Fetch.lean ====
section
/-! SUPPORT. Fetching a chunk: consecutive buffer reads, what the decoder answers on whole chunks, and the
inversion of the decoder's chunk step. -/

namespace Sys2Proof.Machine

/-- Consecutive reads give the buffer's bytes, one by one. -/
theorem bufReads_eq_some {d : DecState} {pos k : Nat} {bs : List Byte} :
    d.bufReads pos k = some bs ↔ bs.length = k ∧ ∀ j, j < k → d.bufRead (pos + j) = bs[j]? := by
  induction k generalizing pos bs with
  | zero =>
    simp only [DecState.bufReads, Option.some.injEq]
    constructor
    · rintro rfl; simp
    · rintro ⟨h, -⟩; exact (List.length_eq_zero_iff.mp h).symm
  | succ k ih =>
    simp only [DecState.bufReads]
    constructor
    · intro h
      split at h
      · next b bs' hb hbs =>
        obtain rfl := Option.some.inj h
        obtain ⟨h1, h2⟩ := ih.mp hbs
        refine ⟨by simp [h1], fun j hj => ?_⟩
        cases j with
        | zero => simpa using hb
        | succ j =>
          have := h2 j (by omega)
          rw [show pos + (j + 1) = pos + 1 + j by omega, this]; simp
      · simp at h
    · rintro ⟨h1, h2⟩
      cases bs with
      | nil => simp at h1
      | cons b bs =>
        have hb := h2 0 (by omega)
        have hbs : d.bufReads (pos + 1) k = some bs := ih.mpr ⟨by simpa using h1, fun j hj => by
          have := h2 (j + 1) (by omega)
          rw [show pos + 1 + j = pos + (j + 1) by omega, this]; simp⟩
        rw [Nat.add_zero] at hb
        rw [hb, hbs]
        simp

theorem bufReads_spans {d : DecState} {n : Nat} (h : Memory.spans d.src n) {pos k : Nat} (hk : pos + k ≤ n) :
    ∃ bs, d.bufReads pos k = some bs := by
  induction k generalizing pos with
  | zero => exact ⟨[], rfl⟩
  | succ k ih =>
    obtain ⟨b, hb⟩ := Memory.spans_read h (show pos < n by omega)
    obtain ⟨bs, hbs⟩ := ih (pos := pos + 1) (by omega)
    have hb' : d.bufRead pos = some b := hb
    exact ⟨b :: bs, by simp only [DecState.bufReads, hb', hbs]⟩

/-- The first of some consecutive reads, and the others. -/
theorem bufReads_head {d : DecState} {pos k : Nat} {b0 : Byte} {bs : List Byte} (hk : 0 < k)
    (hb : d.bufRead pos = some b0) (h : d.bufReads pos k = some bs) : ∃ tl, bs = b0 :: tl := by
  obtain ⟨h1, h2⟩ := bufReads_eq_some.mp h
  cases bs with
  | nil => simp at h1; omega
  | cons b tl =>
    have := h2 0 hk
    rw [Nat.add_zero, hb] at this
    exact ⟨tl, by simpa using this.symm⟩

theorem chunkLen_pos (b0 : Byte) : 0 < chunkLen b0 := by
  unfold chunkLen
  split
  · omega
  · split
    · omega
    · split <;> omega

theorem wf_decodeByte {b0 : Byte} (h1 : b0 ≠ 0xFF) (h2 : b0 ≠ 0xFE) (h3 : bits b0 7 6 ≠ 2) :
    (decodeByte b0).wf = true := by
  have t1 : b0.toNat ≠ 255 := fun h => h1 (BitVec.eq_of_toNat_eq h)
  have t2 : b0.toNat ≠ 254 := fun h => h2 (BitVec.eq_of_toNat_eq h)
  have hb := b0.isLt
  have e1 := bits_lt b0 5 4
  have e2 := bits_lt b0 3 2
  have e3 := bits_lt b0 1 0
  unfold decodeByte
  split
  · rfl
  · split
    · simp only [Instr.wf, Bool.and_eq_true, inRange_iff]; omega
    · next t3 t4 =>
      rw [bits_tag] at t3 t4 h3
      simp only [Instr.wf, Bool.and_eq_true, decide_eq_true_eq, bits_low6]
      omega

theorem length_decodeByte (b0 : Byte) : (decodeByte b0).length = 1 := by
  unfold decodeByte
  split
  · rfl
  · split <;> rfl

theorem wf_decodeLuma (b0 b1 : Byte) : (decodeLuma b0 b1).wf = true := by
  have e1 := bits_lt b0 5 0
  have e2 := bits_lt b1 7 4
  have e3 := bits_lt b1 3 0
  simp only [decodeLuma, Instr.wf, Bool.and_eq_true, inRange_iff]
  omega

theorem decode_cons (b0 : Byte) (rest : List Byte) :
    decode (b0 :: rest) =
      if b0 = 0xFF then
        match rest with
        | r :: g :: b :: a :: rest' => .ok (.rgba r g b a, rest')
        | _ => .error (.truncated "RGBA")
      else if b0 = 0xFE then
        match rest with
        | r :: g :: b :: rest' => .ok (.rgb r g b, rest')
        | _ => .error (.truncated "RGB")
      else if bits b0 7 6 = 0b10 then
        match rest with
        | b1 :: rest' => .ok (decodeLuma b0 b1, rest')
        | [] => .error (.truncated "LUMA")
      else .ok (decodeByte b0, rest) := rfl

/-- What the decoder answers is a well-formed chunk of the length its first byte says, and the rest. -/
theorem decode_facts {b0 : Byte} {bs rest : List Byte} {i : Instr} (h : decode (b0 :: bs) = .ok (i, rest)) :
    i.wf = true ∧ i.length = chunkLen b0 ∧ chunkLen b0 ≤ bs.length + 1 ∧ rest = bs.drop (chunkLen b0 - 1) := by
  rw [decode_cons] at h
  unfold chunkLen
  split at h
  · next h1 =>
    rw [if_pos h1]
    split at h
    · obtain ⟨rfl, rfl⟩ := Prod.mk.inj (Except.ok.inj h)
      exact ⟨rfl, rfl, by simp, by simp⟩
    · simp at h
  · next h1 =>
    rw [if_neg h1]
    split at h
    · next h2 =>
      rw [if_pos h2]
      split at h
      · obtain ⟨rfl, rfl⟩ := Prod.mk.inj (Except.ok.inj h)
        exact ⟨rfl, rfl, by simp, by simp⟩
      · simp at h
    · next h2 =>
      rw [if_neg h2]
      split at h
      · next h3 =>
        rw [if_pos h3]
        split at h
        · obtain ⟨rfl, rfl⟩ := Prod.mk.inj (Except.ok.inj h)
          exact ⟨wf_decodeLuma .., rfl, by simp, by simp⟩
        · simp at h
      · next h3 =>
        rw [if_neg h3]
        obtain ⟨rfl, rfl⟩ := Prod.mk.inj (Except.ok.inj h)
        exact ⟨wf_decodeByte h1 h2 h3, length_decodeByte b0, by simp, by simp⟩

/-- On exactly a chunk's bytes the decoder answers that chunk and no rest (R118, R125). -/
theorem decode_exact {b0 : Byte} {bs : List Byte} (h : bs.length + 1 = chunkLen b0) :
    ∃ i, decode (b0 :: bs) = .ok (i, []) ∧ i.wf = true ∧ i.length = chunkLen b0 := by
  have key : ∃ i rest, decode (b0 :: bs) = .ok (i, rest) := by
    rw [decode_cons]
    unfold chunkLen at h
    split
    · next h1 =>
      rw [if_pos h1] at h
      match bs, h with
      | [r, g, b, a], _ => exact ⟨_, _, rfl⟩
    · next h1 =>
      rw [if_neg h1] at h
      split
      · next h2 =>
        rw [if_pos h2] at h
        match bs, h with
        | [r, g, b], _ => exact ⟨_, _, rfl⟩
      · next h2 =>
        rw [if_neg h2] at h
        split
        · next h3 =>
          rw [if_pos h3] at h
          match bs, h with
          | [b1], _ => exact ⟨_, _, rfl⟩
        · exact ⟨_, _, rfl⟩
  obtain ⟨i, rest, hi⟩ := key
  obtain ⟨h1, h2, -, h4⟩ := decode_facts hi
  have : rest = [] := by rw [h4, ← h]; simp
  exact ⟨i, this ▸ hi, h1, h2⟩

/-- Inversion of the chunk step in a buffer that holds the bytes it needs: it raises TRUNCATED_CHUNK, or it is
`exec` of a well-formed chunk of the length the first byte says. -/
theorem decChunkStep_cases {s : State} {b0 : Byte} (hb : s.dec.bufRead s.dec.pos.toNat = some b0)
    (hs : Memory.spans s.dec.src s.dec.len.toNat) (hp : s.dec.pos.toNat + 8 < s.dec.len.toNat) :
    (1 < chunkLen b0 ∧ s.dec.len.toNat < s.dec.pos.toNat + chunkLen b0 + 8 ∧
      decChunkStep s = .next (raiseFormatError .truncatedChunk s.dec.pos s)) ∨
    ∃ i bs, s.dec.bufReads s.dec.pos.toNat (chunkLen b0) = some bs ∧ decode bs = .ok (i, []) ∧
      i.wf = true ∧ i.length = chunkLen b0 ∧ s.dec.pos.toNat + chunkLen b0 + 8 ≤ s.dec.len.toNat ∧
      decChunkStep s = exec i s := by
  have hpos := chunkLen_pos b0
  by_cases hf : s.dec.pos.toNat + chunkLen b0 + 8 ≤ s.dec.len.toNat
  · right
    obtain ⟨bs, hbs⟩ := bufReads_spans hs (show s.dec.pos.toNat + chunkLen b0 ≤ s.dec.len.toNat by omega)
    obtain ⟨tl, rfl⟩ := bufReads_head hpos hb hbs
    obtain ⟨hl, -⟩ := bufReads_eq_some.mp hbs
    obtain ⟨i, hd, hw, hi⟩ := decode_exact (b0 := b0) (bs := tl) (by simpa using hl)
    refine ⟨i, _, hbs, hd, hw, hi, hf, ?_⟩
    have ho : s.dec.operandsFit b0 = true := by simp [DecState.operandsFit, (fits_iff ..).mpr hf]
    simp only [decChunkStep, hb, ho, hbs, hd, if_true]
  · left
    have h1 : 1 < chunkLen b0 := by omega
    refine ⟨h1, by omega, ?_⟩
    have ho : s.dec.operandsFit b0 = false := by
      simp only [DecState.operandsFit, DecState.fits, Bool.or_eq_false_iff, decide_eq_false_iff_not]
      omega
    simp [decChunkStep, hb, ho]

end Sys2Proof.Machine
end

