-- ==== Sys2Proof/Laws/Encoding.lean ====
section
/-! SUPPORT. Field by field: what the decoder reads back from the bytes the encoder writes. -/

namespace Sys2Proof.Machine

theorem runByte_toNat {n : Nat} (h1 : 1 ≤ n) (h2 : n ≤ 62) : (runByte n).toNat = 192 + (n - 1) := by
  unfold runByte; rw [toByte_toNat]
  have : n - 1 < 64 := by omega
  interval_cases n <;> rfl

theorem byte_ne_ff {b : Byte} (h : b.toNat ≠ 255) : b ≠ 0xFF := fun e => h (by rw [e]; rfl)

theorem byte_ne_fe {b : Byte} (h : b.toNat ≠ 254) : b ≠ 0xFE := fun e => h (by rw [e]; rfl)

/-- A first byte of a 1-byte chunk decodes by itself. -/
theorem decode_one (b : Byte) (rest : List Byte) (h1 : b.toNat < 128 ∨ 192 ≤ b.toNat) (h2 : b.toNat < 254) :
    decode (b :: rest) = .ok (decodeByte b, rest) := by
  rw [decode_cons, if_neg (byte_ne_ff (by omega)), if_neg (byte_ne_fe (by omega)), if_neg]
  rw [bits_tag]; omega

/-- The three fields of a DIFF byte read back. -/
theorem diff_byte (a b c : Nat) (ha : a < 4) (hb : b < 4) (hc : c < 4) :
    decodeByte (toByte (0x40 ||| a <<< 4 ||| b <<< 2 ||| c)) =
        .diff ((a : Int) - 2) ((b : Int) - 2) ((c : Int) - 2) ∧
      (toByte (0x40 ||| a <<< 4 ||| b <<< 2 ||| c)).toNat < 128 := by
  interval_cases a <;> interval_cases b <;> interval_cases c <;> decide

theorem luma_b0 : ∀ g : Fin 64,
    bits (toByte (0x80 ||| g.val)) 5 0 = g.val ∧ bits (toByte (0x80 ||| g.val)) 7 6 = 2 ∧ (toByte (0x80 ||| g.val)).toNat < 192 := by decide

theorem luma_b1 : ∀ r b : Fin 16,
    bits (toByte (r.val <<< 4 ||| b.val)) 7 4 = r.val ∧ bits (toByte (r.val <<< 4 ||| b.val)) 3 0 = b.val := by decide

theorem biased_eq {bias d : Int} (h : 0 ≤ d + bias) : (biased bias d : Int) - bias = d := by
  simp only [biased]; omega

end Sys2Proof.Machine
end

