-- ==== Sys2Proof/Laws/Step.lean ====
section
/-! SUPPORT. Inversion lemmas: everything a step of the machine, of the host, of ENC and of DEC can do. -/

namespace Sys2Proof.Machine

/-- Inversion of `step`: nobody moves, or one move is made on the state whose agenda has lost it. -/
theorem step_cases {s t : State} (h : step s = .next t) :
    t = s ∨ ∃ m, s.nextMove = some m ∧ moveStep m s.takeMove = .next t := by
  unfold step at h
  split at h
  · exact .inl (Host.Outcome.next.inj h).symm
  · next m hm => exact .inr ⟨m, hm, h⟩

/-- Inversion of a host action: a START that its guards let pass, or a read. -/
theorem hostStep_cases {a : HostAction} {s t : State} (h : hostStep a s = .next t) :
    (∃ W H px room, a = .startEncode W H px room ∧ s.enc.startable = true ∧
      px.length = W.toNat * H.toNat ∧ 22 + 5 * (W.toNat * H.toNat) ≤ room ∧ t = beginEncode W H px s) ∨
    (∃ bs supply, a = .startDecode bs supply ∧ s.dec.startable = true ∧ bs.length < 2 ^ 64 ∧
      t = beginDecode bs supply s) ∨
    ∃ v, t = sawView v s := by
  cases a with
  | startEncode W H px room =>
    simp only [hostStep, hostStartEncode] at h
    split at h
    · split at h
      · split at h
        · exact .inl ⟨W, H, px, room, rfl, ‹_›, ‹_›, ‹_›, (Host.Outcome.next.inj h).symm⟩
        · simp at h
      · simp at h
    · simp at h
  | startDecode bs supply =>
    simp only [hostStep, hostStartDecode] at h
    split at h
    · split at h
      · exact .inr (.inl ⟨bs, supply, rfl, ‹_›, ‹_›, (Host.Outcome.next.inj h).symm⟩)
      · simp at h
    · simp at h
  | readEncStatus => exact .inr (.inr ⟨_, (Host.Outcome.next.inj h).symm⟩)
  | readDecStatus => exact .inr (.inr ⟨_, (Host.Outcome.next.inj h).symm⟩)
  | readEncoded =>
    simp only [hostStep, hostReadEncoded] at h
    split at h
    · exact .inr (.inr ⟨_, (Host.Outcome.next.inj h).symm⟩)
    · simp at h
  | readDecoded =>
    simp only [hostStep, hostReadDecoded] at h
    split at h
    · exact .inr (.inr ⟨_, (Host.Outcome.next.inj h).symm⟩)
    · simp at h

/-- Inversion of ENC's step, by its phase. -/
theorem encStep_cases {s t : State} (h : encStep s = .next t) :
    (s.enc.phase = .idle ∧ t = s) ∨
    (s.enc.phase = .header ∧ t = { s with enc := encHeader s.cfg.magic s.enc }) ∨
    (s.enc.phase = .pixels ∧ encPixelStep s = .next t) ∨
    (s.enc.phase = .finish ∧ t = { s with enc := encFinish s.enc }) ∨
    (s.enc.phase = .done ∧ t = s) := by
  unfold encStep at h
  split at h
  · exact .inl ⟨‹_›, (Host.Outcome.next.inj h).symm⟩
  · exact .inr (.inl ⟨‹_›, (Host.Outcome.next.inj h).symm⟩)
  · exact .inr (.inr (.inl ⟨‹_›, h⟩))
  · exact .inr (.inr (.inr (.inl ⟨‹_›, (Host.Outcome.next.inj h).symm⟩)))
  · exact .inr (.inr (.inr (.inr ⟨‹_›, (Host.Outcome.next.inj h).symm⟩)))

/-- Every step of ENC writes the engine's own state and nothing else. -/
theorem encStep_only_enc {s t : State} (h : encStep s = .next t) : t = { s with enc := t.enc } := by
  rcases encStep_cases h with ⟨-, rfl⟩ | ⟨-, rfl⟩ | ⟨-, h⟩ | ⟨-, rfl⟩ | ⟨-, rfl⟩
  · rfl
  · rfl
  · obtain ⟨px, -, h⟩ := encPixelStep_cases h
    rcases h with ⟨-, -, rfl⟩ | ⟨-, -, rfl⟩ | ⟨hit, -, -, rfl⟩ <;> rfl
  · rfl
  · rfl

/-- Inversion of DEC's header step: it raises one of its two causes, or latches a header it has read. -/
theorem decHeaderStep_cases {s t : State} (h : decHeaderStep s = .next t) :
    t = raiseFormatError .badMagic 0 s ∨
    (s.dec.len.toNat < 22 ∧ t = raiseFormatError .shortInput s.dec.len s) ∨
    ∃ W H ch cs, 22 ≤ s.dec.len.toNat ∧ W.toNat * H.toNat ≤ s.dec.supply ∧
      t = { s with dec := latchHeader W H ch cs s.dec } := by
  unfold decHeaderStep at h
  split at h
  · exact .inl (Host.Outcome.next.inj h).symm
  · split at h
    · split at h
      · unfold checkedHeader at h
        split at h
        · exact .inr (.inl ⟨‹_›, (Host.Outcome.next.inj h).symm⟩)
        · split at h
          · next hl _ w3 w2 w1 w0 h3 h2 h1 h0 ch cs _ =>
            simp only at h
            split at h
            · simp at h
            · next hn =>
              exact .inr (.inr ⟨_, _, ch, cs, by omega, by simpa [DecState.N] using hn,
                (Host.Outcome.next.inj h).symm⟩)
          · simp at h
      · exact .inl (Host.Outcome.next.inj h).symm
    · simp at h

/-- Inversion of DEC's chunk step: it raises a cause at the chunk's start, or is a chunk done. -/
theorem decChunkStep_next {s t : State} (h : decChunkStep s = .next t) :
    (∃ c, t = raiseFormatError c s.dec.pos s) ∨
      ∃ i px d, i.wf = true ∧ exec i s = .next t ∧ t = { s with dec := d } ∧
        chunkPixel i s.dec = some px ∧ ChunkDone i px s.dec d := by
  unfold decChunkStep at h
  split at h
  · simp at h
  · next b0 hb =>
    split at h
    · split at h
      · simp at h
      · next bs hbs =>
        split at h
        · next i rest hd =>
          obtain ⟨tl, rfl⟩ := bufReads_head (chunkLen_pos b0) hb hbs
          have hw := (decode_facts hd).1
          rcases exec_cases hw s with ⟨c, hc⟩ | ⟨px, d, h1, h2, h3⟩
          · exact .inl ⟨c, (Host.Outcome.next.inj (hc.symm.trans h)).symm⟩
          · have := Host.Outcome.next.inj (h1.symm.trans h)
            exact .inr ⟨i, px, d, hw, h, this.symm, h2, h3⟩
        · simp at h
    · exact .inl ⟨_, (Host.Outcome.next.inj h).symm⟩

/-- Inversion of DEC's step, by its phase. -/
theorem decStep_cases {s t : State} (h : decStep s = .next t) :
    ((s.dec.phase = .idle ∨ s.dec.phase = .done ∨ s.dec.phase = .error) ∧ t = s) ∨
    (s.dec.phase = .header ∧ decHeaderStep s = .next t) ∨
    (s.dec.phase = .chunks ∧ decChunkStep s = .next t) ∨
    (s.dec.phase = .finish ∧ s.dec.p.toNat = s.dec.N ∧ t = { s with dec := { s.dec with phase := .done } }) ∨
    (s.dec.phase = .finish ∧ s.dec.p.toNat ≠ s.dec.N ∧
      t = raiseFormatError .pixelUnderflow s.dec.pos s) := by
  unfold decStep at h
  split at h
  · exact .inl ⟨.inl ‹_›, (Host.Outcome.next.inj h).symm⟩
  · exact .inr (.inl ⟨‹_›, h⟩)
  · exact .inr (.inr (.inl ⟨‹_›, h⟩))
  · unfold decFinishStep at h
    split at h
    · exact .inr (.inr (.inr (.inl ⟨‹_›, ‹_›, (Host.Outcome.next.inj h).symm⟩)))
    · exact .inr (.inr (.inr (.inr ⟨‹_›, ‹_›, (Host.Outcome.next.inj h).symm⟩)))
  · exact .inl ⟨.inr (.inl ‹_›), (Host.Outcome.next.inj h).symm⟩
  · exact .inl ⟨.inr (.inr ‹_›), (Host.Outcome.next.inj h).symm⟩

/-- Every step of DEC writes the engine's own state and the draw counter, and nothing else. -/
theorem decStep_only_dec {s t : State} (h : decStep s = .next t) :
    t = { s with dec := t.dec, draws := t.draws } := by
  rcases decStep_cases h with ⟨-, rfl⟩ | ⟨-, h⟩ | ⟨-, h⟩ | ⟨-, -, rfl⟩ | ⟨-, -, rfl⟩
  · rfl
  · rcases decHeaderStep_cases h with rfl | ⟨-, rfl⟩ | ⟨W, H, ch, cs, -, -, rfl⟩ <;> rfl
  · rcases decChunkStep_next h with ⟨c, rfl⟩ | ⟨i, px, d, -, -, rfl, -, -⟩ <;> rfl
  · rfl
  · rfl

end Sys2Proof.Machine
end

