-- ==== Sys2Proof/Laws/Independence.lean ====
section
/-! SUPPORT. What the chunk meanings do not look at: the input buffer, the encoder, `DELTA_MODE`. -/

namespace Sys2Proof.Machine
/-- The decoder with another input buffer. -/
def setSrc (m : Memory Byte) (d : DecState) : DecState := { d with src := m }

theorem put_setSrc (m : Memory Byte) (px : Pixel) (d : DecState) : put px (setSrc m d) = (put px d).map (setSrc m) := by
  by_cases h : d.N ≤ d.p.toNat
  · rw [put_overflow h, put_overflow (d := setSrc m d) h]; rfl
  · have h1 : d.p.toNat < d.N := by omega
    have h2 := @put_ok px (setSrc m d) h1
    rw [h2, put_ok h1]; rfl

theorem replay_setSrc (m : Memory Byte) (n : Nat) (px : Pixel) (d : DecState) :
    replay n px (setSrc m d) = (replay n px d).map (setSrc m) := by
  induction n generalizing d with
  | zero => rfl
  | succ n ih =>
    simp only [replay, put_setSrc]
    cases put px d with
    | error c => rfl
    | ok d' => exact ih d'

theorem finishChunk_setSrc (m : Memory Byte) (k : Nat) (px : Pixel) (d : DecState) :
    finishChunk k px (setSrc m d) = (finishChunk k px d).map (setSrc m) := by
  by_cases h : d.N ≤ d.p.toNat
  · rw [finishChunk_overflow h, finishChunk_overflow (d := setSrc m d) h]; rfl
  · have h1 : d.p.toNat < d.N := by omega
    let s : State := { State.reset with dec := d }
    let s' : State := { State.reset with dec := setSrc m d }
    have h2 := @finishChunk_ok k px s h1
    have h3 := @finishChunk_ok k px s' h1
    show finishChunk k px s'.dec = (finishChunk k px s.dec).map (setSrc m)
    rw [h2, h3]; rfl

theorem closeChunk_setSrc (m : Memory Byte) (r : Except Cause DecState) (s : State) :
    closeChunk (r.map (setSrc m)) { s with dec := setSrc m s.dec } = mapNext (fun t => { t with dec := setSrc m t.dec }) (closeChunk r s) := by
  cases r <;> rfl

/-- A chunk's meaning works on operands already fetched: it does not look at the buffer. -/
theorem exec_setSrc (m : Memory Byte) (i : Instr) (s : State) :
    exec i { s with dec := setSrc m s.dec } = mapNext (fun t => { t with dec := setSrc m t.dec }) (exec i s) := by
  have nd : ∀ k (f : DecState → Except Cause DecState), (∀ d, f (setSrc m d) = (f d).map (setSrc m)) → 
      closeChunk ((need k (setSrc m s.dec)).bind f) { s with dec := setSrc m s.dec } = 
      mapNext (fun t => { t with dec := setSrc m t.dec }) (closeChunk ((need k s.dec).bind f) s) := by
    intro k f hf
    rw [← closeChunk_setSrc]
    congr 1
    have hn : need k (setSrc m s.dec) = (need k s.dec).map (setSrc m) := by
      unfold need
      by_cases h : s.dec.fits k = true
      · rw [if_pos h, if_pos (show (setSrc m s.dec).fits k = true from h)]; rfl
      · rw [if_neg h, if_neg (show ¬ (setSrc m s.dec).fits k = true from h)]; rfl
    rw [hn]
    cases need k s.dec with
    | error c => rfl
    | ok d => exact hf d
  cases i with
  | idx slot =>
    simp only [exec, execIdx]
    rw [← closeChunk_setSrc]
    congr 1
    simp only [readBack]
    show (match s.dec.pixRead (cacheRead s.dec.cache slot).toNat with | none => _ | some px => _ : Except Cause Pixel).bind _ = _
    cases s.dec.pixRead (cacheRead s.dec.cache slot).toNat with
    | none => rfl
    | some px => exact finishChunk_setSrc ..
  | diff dr dg db => simp only [exec, execDiff]; rw [← closeChunk_setSrc, ← finishChunk_setSrc]; rfl
  | luma dg drg dbg => exact nd _ _ fun d => finishChunk_setSrc ..
  | run n =>
    simp only [exec, execRun]
    rw [← closeChunk_setSrc]
    congr 1
    show (replay (n-1) s.dec.prev (setSrc m s.dec)).bind _ = _
    rw [replay_setSrc]
    cases replay (n-1) s.dec.prev s.dec with
    | error c => rfl
    | ok d => exact finishChunk_setSrc ..
  | rgb r g b => exact nd _ _ fun d => finishChunk_setSrc ..
  | rgba r g b a => exact nd _ _ fun d => finishChunk_setSrc ..

theorem closeChunk_enc (r : Except Cause DecState) (s : State) (e : EncState) :
    closeChunk r { s with enc := e } = mapNext (fun t => { t with enc := e }) (closeChunk r s) := by cases r <;> rfl

/-- A chunk's meaning does not look at the encoder. -/
theorem exec_enc (i : Instr) (s : State) (e : EncState) :
    exec i { s with enc := e } = mapNext (fun t => { t with enc := e }) (exec i s) := by
  cases i <;> exact closeChunk_enc ..

theorem closeChunk_mode (r : Except Cause DecState) (s : State) (m : DeltaMode) :
    closeChunk r (s.withMode m) = mapNext (State.withMode m) (closeChunk r s) := by cases r <;> rfl

/-- A chunk's meaning does not look at `DELTA_MODE`. -/
theorem exec_mode (i : Instr) (s : State) (m : DeltaMode) :
    exec i (s.withMode m) = mapNext (State.withMode m) (exec i s) := by
  cases i <;> exact closeChunk_mode ..

end Sys2Proof.Machine
end

