-- ==== Sys2Proof/Laws/Invariant.lean ====
section
/-! SUPPORT. What one step keeps of R44 and R55, said per step of an engine; and that such a step does not stop. -/

namespace Sys2Proof.Machine

/-- A pixel step keeps the slot clauses. -/
theorem slotOk_step {e e' : EncState} {px : Pixel} (hi : e'.i.toNat = e.i.toNat + 1)
    (hr : ∀ k, e'.pixRead k = e.pixRead k) (hc : e'.cache = cacheWrite e.cache (pixelHash px) e.i)
    (hp : e.pixRead e.i.toNat = some px) (h : ∀ s, e.slotOk s) (s : Slot) : e'.slotOk s := by
  unfold EncState.slotOk
  simp only [hi, hr, hc, cacheRead_cacheWrite]
  by_cases hs : s = pixelHash px
  · left
    simp only [if_pos hs]
    exact ⟨by omega, by rw [hp, hs]; rfl, fun k h1 h2 => absurd h1 (by omega)⟩
  · simp only [if_neg hs]
    have hne : (e.pixRead e.i.toNat).map pixelHash ≠ some s := by rw [hp]; simpa using fun h => hs h.symm
    rcases h s with ⟨h1, h2, h3⟩ | ⟨h1, h2⟩
    · left
      refine ⟨by omega, h2, fun k hk hk' => ?_⟩
      by_cases e1 : k = e.i.toNat
      · rw [e1]; exact hne
      · exact h3 k hk (by omega)
    · right
      refine ⟨h1, fun k hk => ?_⟩
      by_cases e1 : k = e.i.toNat
      · rw [e1]; exact hne
      · exact h2 k (by omega)

/-- What a pixel step that appends bs and leaves a run keeps of R44, given what it owes. -/
theorem scanning_afterPixel {bs : List Byte} {run : BitVec 6} {px : Pixel} {s : State}
    (h : EncScanning s.enc) (hi : s.enc.i.toNat < s.enc.N) (hp : s.enc.pixRead s.enc.i.toNat = some px)
    (hrun : (px = s.enc.prev ∧ run.toNat = s.enc.run.toNat + 1 ∧ run.toNat ≤ 61) ∨ run = 0)
    (hlen : bs.length + (if run = 0 then 0 else 1) ≤ 5 + (if s.enc.run = 0 then 0 else 1)) :
    EncScanning (afterPixel bs run px s).enc := by
  have hi' : (afterPixel bs run px s).enc.i.toNat = s.enc.i.toNat + 1 := EncState.i_succ hi
  have hi0 : (afterPixel bs run px s).enc.i ≠ 0 := by intro e; rw [e] at hi'; simp at hi'
  have hN := afterPixel_N bs run px s
  have hR := afterPixel_pixRead bs run px s
  have hru : (afterPixel bs run px s).enc.run = run := rfl
  have hpr : (afterPixel bs run px s).enc.prev = px := rfl
  have hd : (afterPixel bs run px s).enc.dst = (emit bs s.enc).dst := rfl
  constructor
  · rw [hN]; simpa [afterPixel] using h.whole
  · omega
  · rw [hru]; rcases hrun with ⟨-, -, h⟩ | h
    · exact h
    · rw [h]; decide
  · rw [if_neg hi0, hR, hi', hpr]; exact hp
  · intro sl
    have := h.slots sl
    show (cacheRead (cacheWrite s.enc.cache (pixelHash px) s.enc.i) sl).toNat < _
    rw [cacheRead_cacheWrite, hi']
    split <;> omega
  · exact slotOk_step hi' hR rfl hp h.slotsLast
  · rw [hru, hi', hpr]
    simp only [hR]
    rcases hrun with ⟨h1, h2, -⟩ | h1
    · refine ⟨by have := h.runPixels.1; omega, fun k hk hk' => ?_⟩
      by_cases e : k = s.enc.i.toNat
      · rw [e]; exact hp
      · rw [h1]; exact h.runPixels.2 k (by omega) (by omega)
    · rw [h1]; exact ⟨by simp, fun k hk hk' => absurd hk (by simp; omega)⟩
  · rw [hru, hi', hpr]
    simp only [hR]
    intro hne
    rcases hrun with ⟨h1, h2, -⟩ | h1
    · rw [h2]
      have e : s.enc.i.toNat + 1 - (s.enc.run.toNat + 1) - 1 = s.enc.i.toNat - s.enc.run.toNat - 1 := by omega
      have e2 : (s.enc.run.toNat + 1 = s.enc.i.toNat + 1) ↔ (s.enc.run.toNat = s.enc.i.toNat) := by omega
      simp only [e, e2, h1]
      by_cases hz : s.enc.run = 0
      · have h4 := h.prevIsLast
        have hz' : s.enc.run.toNat = 0 := by rw [hz]; rfl
        by_cases hz2 : s.enc.i = 0
        · rw [if_pos hz2] at h4
          rw [if_pos (by rw [hz', hz2]; rfl)]; exact h4
        · rw [if_neg hz2] at h4
          have : s.enc.i.toNat ≠ 0 := fun h => hz2 (BitVec.eq_of_toNat_eq h)
          rw [if_neg (by omega), hz']; exact h4
      · exact h.runBefore hz
    · exact absurd h1 hne
  · exact counted_congr (e := emit bs s.enc) rfl rfl (counted_emit bs h.counted)
  · rw [hd, hru, hi']
    have h1 := h.bounded
    have h2 := length_emit bs s.enc
    omega

theorem scanning_pixelStep {s t : State} (h : EncScanning s.enc) (hi : s.enc.i.toNat < s.enc.N)
    (ht : encPixelStep s = .next t) : EncScanning t.enc ∧ t.enc.N = s.enc.N ∧ t.enc.i.toNat = s.enc.i.toNat + 1 ∧
      t.enc.phase = if (s.enc.i.toNat + 1 = s.enc.N) then .finish else s.enc.phase := by
  obtain ⟨px, hp, h1⟩ := encPixelStep_cases ht
  have hi' := EncState.i_succ hi
  have ph : ∀ bs run, (afterPixel bs run px s).enc.phase = if (s.enc.i.toNat + 1 = s.enc.N) then .finish else s.enc.phase := by
    intro bs run
    show (if (s.enc.i + 1).toNat = s.enc.N then _ else _) = _
    rw [hi']
  have hcap := h.runCap
  rcases h1 with ⟨e, h62, rfl⟩ | ⟨e, h62, rfl⟩ | ⟨hit, e, hh, rfl⟩
  · exact ⟨scanning_afterPixel h hi hp (.inr rfl) (by simp only [List.length_singleton, if_true]; omega), afterPixel_N .., hi', ph _ _⟩
  · refine ⟨scanning_afterPixel h hi hp (.inl ⟨e, ?_, ?_⟩) (by simp only [List.length_nil]; split <;> omega), afterPixel_N .., hi', ph _ _⟩
    · bv_omega
    · bv_omega
  · refine ⟨scanning_afterPixel h hi hp (.inr rfl) ?_, afterPixel_N .., hi', ph _ _⟩
    have := length_classify s.cfg.deltaMode hit px s.enc.prev
    rw [List.length_append, length_owedRun, length_encode]
    simp only [if_true]
    omega

theorem scanning_encHeader {m : Magic} {e : EncState} (h1 : Memory.spans e.src e.N) (h2 : e.i = 0) (h3 : e.prev = Config.prevInit)
    (h4 : e.run = 0) (h5 : e.cache = cacheSeed) (h6 : e.opos = 0) (h7 : e.dst = []) : EncScanning (encHeader m e) := by
  have hN : (encHeader m e).N = e.N := by simp [EncState.N]
  have hc0 : Counted e := by unfold Counted; rw [h6, h7]; exact ⟨Memory.spans_nil, fun _ => rfl⟩
  have hc : Counted (encHeader m e) :=
    counted_congr (encHeader_dst m e).symm (encHeader_opos m e).symm (counted_emit _ hc0)
  have hl : (encHeader m e).dst.length = 14 := by
    rw [encHeader_dst, length_emit, length_headerBytes, h7]; rfl
  constructor
  · rw [hN]; simpa using h1
  · simp [h2]
  · simp [h4]
  · simp [h2, h3]
  · intro s; simp [h2, h5, cacheRead_seed]
  · intro s; right; simp [h2, h5, cacheRead_seed]
  · simp [h2, h4]
  · simp [h4]
  · exact hc
  · simp only [encHeader_run, encHeader_i, h2, h4, hl, if_true]; decide

theorem encDone_of_finish {e : EncState} (h : EncScanning e) (hi : e.i.toNat = e.N) : EncInv (encFinish e) := by
  have hN : (encFinish e).N = e.N := by simp [EncState.N]
  have hb := h.bounded
  have h1 := length_emit (owedRun e) e
  have h2 : (flushRun e).dst = (emit (owedRun e) e).dst := by rw [flushRun_eq]
  have h3 := length_emit Config.endMarker (flushRun e)
  have hlo := length_owedRun e
  have hle : Config.endMarker.length = 8 := rfl
  have h5 : 22 ≤ (encFinish e).dst.length := by
    rw [encFinish_dst]; rw [h2] at *; omega
  have h6 : (encFinish e).dst.length ≤ 22 + 5 * e.N := by
    rw [encFinish_dst]; rw [h2] at *; omega
  simp only [EncInv, encFinish_phase, hN]
  exact ⟨h5, h6, counted_encFinish h.counted⟩

theorem encInv_beginEncode {W H : U32} {px : List Pixel} {s : State} (h : px.length = W.toNat * H.toNat) :
    EncInv (beginEncode W H px s).enc := by
  simp only [EncInv, beginEncode_enc_phase]
  refine ⟨?_, rfl, rfl, rfl, rfl, rfl, rfl⟩
  show Memory.spans (Memory.ofList px) (W.toNat * H.toNat)
  rw [← h]; exact Memory.spans_ofList px

theorem chunkEnd_pixRead (i : Instr) (px : Pixel) (m : Memory Pixel) (d : DecState) (q : Nat) :
    (chunkEnd i px m d).pixRead q = if q < d.N then Memory.read m q else none := DecState.pixRead_eq ..

theorem chunkEnd_pos {i : Instr} {px : Pixel} {m : Memory Pixel} {d : DecState}
    (h : d.pos.toNat + i.length + 8 ≤ d.len.toNat) : (chunkEnd i px m d).pos.toNat = d.pos.toNat + i.length := by
  have := d.len.isLt
  show (d.pos + BitVec.ofNat 64 i.length).toNat = _
  simp [BitVec.toNat_add]; omega

theorem chunkEnd_p {i : Instr} {px : Pixel} {m : Memory Pixel} {d : DecState}
    (h : d.p.toNat + pixelCount i ≤ d.N) : (chunkEnd i px m d).p.toNat = d.p.toNat + pixelCount i := by
  have := d.N_lt
  show (d.p + BitVec.ofNat 64 (pixelCount i)).toNat = _
  simp [BitVec.toNat_add]; omega

/-- The chunk step in a scanning decoder: its outcome is no stop; without an error the chunk is done inside
the region. -/
theorem scanning_chunkStep {s t : State} (h : DecScanning s.dec) (hlt : s.dec.pos.toNat + 8 < s.dec.len.toNat)
    (ht : decChunkStep s = .next t) : (∃ c, t = raiseFormatError c s.dec.pos s) ∨
      ∃ i px d, i.wf = true ∧ t = { s with dec := d } ∧ chunkPixel i s.dec = some px ∧ ChunkDone i px s.dec d ∧
        s.dec.pos.toNat + i.length + 8 ≤ s.dec.len.toNat := by
  obtain ⟨b0, hb⟩ : ∃ b0, s.dec.bufRead s.dec.pos.toNat = some b0 := Memory.spans_read h.whole (by omega)
  rcases decChunkStep_cases hb h.whole hlt with ⟨-, -, h3⟩ | ⟨i, bs, -, -, h3, h4, h5, h6⟩
  · rw [h3] at ht; exact .inl ⟨_, (Host.Outcome.next.inj ht).symm⟩
  · rw [h6] at ht
    rcases exec_cases h3 s with ⟨c, hc⟩ | ⟨px, d, h7, h8, h9⟩
    · exact .inl ⟨c, (Host.Outcome.next.inj (hc.symm.trans ht)).symm⟩
    · exact .inr ⟨i, px, d, h3, (Host.Outcome.next.inj (h7.symm.trans ht)).symm, h8, h9, by omega⟩

/-- A chunk done in a scanning decoder keeps R55. -/
theorem scanning_chunkDone {i : Instr} {px : Pixel} {d d' : DecState} (hw : i.wf = true) (h : DecScanning d)
    (hd : ChunkDone i px d d') (hl : d.pos.toNat + i.length + 8 ≤ d.len.toNat) :
    DecScanning d' ∧ d'.len = d.len ∧ d'.pos.toNat = d.pos.toNat + i.length ∧
      d'.phase = if d.len.toNat ≤ d.pos.toNat + i.length + 8 then .finish else d.phase := by
  obtain ⟨m, rfl, hN, hm, -⟩ := hd
  have hpos := chunkEnd_pos (px := px) (m := m) hl
  have hp := chunkEnd_p (px := px) (m := m) hN
  have hc := pixelCount_pos hw
  have hNN : (chunkEnd i px m d).N = d.N := rfl
  have hNlt := d.N_lt
  have hp0 : (chunkEnd i px m d).p ≠ 0 := by intro e; rw [e] at hp; simp at hp; omega
  have hph : (chunkEnd i px m d).phase = if d.len.toNat ≤ d.pos.toNat + i.length + 8 then .finish else d.phase := by
    rw [← hpos]; rfl
  refine ⟨?_, rfl, hpos, hph⟩
  constructor
  · exact h.whole
  · have := h.posLow; omega
  · show _ ≤ d.len.toNat; omega
  · intro q
    rw [DecState.written, chunkEnd_pixRead, hp, hm]
    have h1 := h.writtenBelow q
    rw [DecState.written_eq] at h1
    simp only [Bool.and_eq_true, decide_eq_true_eq] at h1
    by_cases hq : q < d.N
    · rw [if_pos hq]
      split
      · simp; omega
      · have : (Memory.read d.dst q).isSome = true ↔ q < d.p.toNat := by rw [← h1]; simp [hq]
        rw [this]; omega
    · rw [if_neg hq]; simp; omega
  · rw [if_neg hp0, chunkEnd_pixRead, hp, if_pos (by omega), hm, if_pos (by omega)]; rfl
  · intro sl
    have := h.slots sl
    show (cacheRead (cacheWrite d.cache (pixelHash px) (d.p + BitVec.ofNat 64 (pixelCount i - 1))) sl).toNat < _
    rw [cacheRead_cacheWrite, hp]
    split
    · simp [BitVec.toNat_add]; omega
    · omega
  · rw [hp]; exact hN
  · exact h.noCause

theorem decInv_latch {W H : U32} {ch cs : Byte} {d : DecState} (h1 : Memory.spans d.src d.len.toNat) (h2 : d.cause = 0)
    (hl : 22 ≤ d.len.toNat) : DecInv (latchHeader W H ch cs d) := by
  have hs : DecScanning (latchHeader W H ch cs d) := by
    constructor
    · exact h1
    · simp
    · simp; omega
    · intro q; simp [DecState.written_eq]
    · simp
    · intro s; simp [cacheRead_seed]
    · simp
    · simpa using h2
  have hph : (latchHeader W H ch cs d).phase = if 22 < d.len.toNat then .chunks else .finish := rfl
  by_cases h : 22 < d.len.toNat
  · rw [if_pos h] at hph
    simp only [DecInv, hph]
    exact ⟨hs, by simp; omega⟩
  · rw [if_neg h] at hph
    simp only [DecInv, hph]
    exact ⟨hs, by simp; omega⟩

theorem decInv_beginDecode {bs : List Byte} {n : Nat} {s : State} (h : bs.length < 2 ^ 64) : DecInv (beginDecode bs n s).dec := by
  simp only [DecInv, beginDecode_dec_phase]
  refine ⟨?_, rfl, rfl⟩
  have : (beginDecode bs n s).dec.len.toNat = bs.length := by simp; omega
  rw [this]; exact Memory.spans_ofList bs

/-- ENC's step never stops where R44 holds. -/
theorem encStep_next {s : State} (h : EncInv s.enc) : ∃ t, encStep s = .next t := by
  cases hp : s.enc.phase with
  | idle => exact ⟨_, by simp only [encStep, hp]; rfl⟩
  | header => exact ⟨_, by simp only [encStep, hp]; rfl⟩
  | finish => exact ⟨_, by simp only [encStep, hp]; rfl⟩
  | done => exact ⟨_, by simp only [encStep, hp]; rfl⟩
  | pixels =>
    simp only [EncInv, hp] at h
    obtain ⟨h, hi⟩ := h
    obtain ⟨px, hpx⟩ := EncState.pixRead_whole h.whole hi
    by_cases he : px = s.enc.prev
    · subst he
      exact ⟨_, by simp only [encStep, hp, encPixelStep, hpx, Option.bind_some, pixelEffect_run]; rfl⟩
    · have hsl := h.slots (pixelHash px)
      refine ⟨_, encStep_differs hp hpx he (cacheHit_eq ?_)⟩
      by_cases h0 : s.enc.i = 0
      · exact .inl h0
      · right
        have : s.enc.i.toNat ≠ 0 := fun h => h0 (BitVec.eq_of_toNat_eq h)
        obtain ⟨q, hq⟩ := EncState.pixRead_whole h.whole (i := (cacheRead s.enc.cache (pixelHash px)).toNat) (by omega)
        rw [hq]; rfl

/-- DEC's step never stops where R55 holds, but at a surface the host cannot supply. -/
theorem decStep_next {s : State} (h : DecInv s.dec) :
    (∃ t, decStep s = .next t) ∨ (s.dec.phase = .header ∧ decStep s = .refused .noOutputSurface) := by
  cases hp : s.dec.phase with
  | idle => exact .inl ⟨_, by simp only [decStep, hp]; rfl⟩
  | done => exact .inl ⟨_, by simp only [decStep, hp]; rfl⟩
  | error => exact .inl ⟨_, by simp only [decStep, hp]; rfl⟩
  | finish =>
    left
    by_cases h0 : s.dec.p.toNat = s.dec.N
    · exact ⟨_, by simp only [decStep, hp, decFinishStep, if_pos h0]; rfl⟩
    · exact ⟨_, by simp only [decStep, hp, decFinishStep, if_neg h0]; rfl⟩
  | header =>
    simp only [DecInv, hp] at h
    simp only [decStep, hp, true_and]
    unfold decHeaderStep
    by_cases h4 : s.dec.len.toNat < 4
    · rw [if_pos h4]; exact .inl ⟨_, rfl⟩
    · rw [if_neg h4]
      obtain ⟨bs, hbs⟩ := bufReads_spans h.1 (show 0 + 4 ≤ s.dec.len.toNat by omega)
      rw [hbs]
      simp only
      split
      · unfold checkedHeader
        by_cases h22 : s.dec.len.toNat < 22
        · rw [if_pos h22]; exact .inl ⟨_, rfl⟩
        · rw [if_neg h22]
          obtain ⟨cs, hcs⟩ := bufReads_spans h.1 (show 4 + 10 ≤ s.dec.len.toNat by omega)
          have hl := (bufReads_eq_some.mp hcs).1
          rw [hcs]
          match cs, hl with
          | [a0, a1, a2, a3, a4, a5, a6, a7, a8, a9], _ =>
            simp only
            split
            · exact .inr rfl
            · exact .inl ⟨_, rfl⟩
      · exact .inl ⟨_, rfl⟩
  | chunks =>
    left
    simp only [DecInv, hp] at h
    obtain ⟨h, hlt⟩ := h
    obtain ⟨b0, hb⟩ : ∃ b0, s.dec.bufRead s.dec.pos.toNat = some b0 := Memory.spans_read h.whole (by omega)
    simp only [decStep, hp]
    rcases decChunkStep_cases hb h.whole hlt with ⟨-, -, h3⟩ | ⟨i, bs, -, -, h3, h4, h5, h6⟩
    · exact ⟨_, h3⟩
    · rw [h6]
      rcases exec_cases h3 s with ⟨c, hc⟩ | ⟨px, d, h7, h8, h9⟩
      · exact ⟨_, hc⟩
      · exact ⟨_, h7⟩

end Sys2Proof.Machine
end

