-- ==== Sys2Proof/Laws/PerInstr.lean ====
section
/-! SUPPORT. Statements made per chunk kind. ChunkShape (30_encoding.md R110, R117): a well-formed chunk's bytes
are as many as its kind's length, and its first byte alone says that length. -/

namespace Sys2Proof.Laws.ChunkShape

open Sys2Proof.Machine

/-- The bytes of a well-formed chunk are `length` many, and the first says so. -/
def Statement (i : Instr) : Prop :=
  i.wf = true → ∃ b0 tl, encode i = b0 :: tl ∧ tl.length + 1 = i.length ∧ chunkLen b0 = i.length

theorem chunkLen_one {b : Byte} (h1 : b.toNat < 128 ∨ 192 ≤ b.toNat) (h2 : b.toNat < 254) : chunkLen b = 1 := by
  unfold chunkLen
  rw [if_neg (byte_ne_ff (by omega)), if_neg (byte_ne_fe (by omega)), if_neg]
  rw [bits_tag]; omega

theorem idx (s : Slot) : Statement (.idx s) := by
  intro _
  refine ⟨_, _, rfl, rfl, chunkLen_one ?_ ?_⟩ <;> rw [Nat.zero_or, toByte_toNat] <;> have := s.isLt <;> omega

theorem diff (dr dg db : Int) : Statement (.diff dr dg db) := by
  intro hw
  simp only [Instr.wf, Bool.and_eq_true, inRange_iff] at hw
  have h := (diff_byte (biased 2 dr) (biased 2 dg) (biased 2 db) (by simp [biased]; omega)
    (by simp [biased]; omega) (by simp [biased]; omega)).2
  exact ⟨_, _, rfl, rfl, chunkLen_one (by omega) (by omega)⟩

theorem luma (dg drg dbg : Int) : Statement (.luma dg drg dbg) := by
  intro hw
  simp only [Instr.wf, Bool.and_eq_true, inRange_iff] at hw
  have h := luma_b0 ⟨biased 32 dg, by simp [biased]; omega⟩
  simp only at h
  obtain ⟨-, h1, h2⟩ := h
  refine ⟨_, _, rfl, rfl, ?_⟩
  unfold chunkLen
  rw [if_neg (byte_ne_ff (by omega)), if_neg (byte_ne_fe (by omega)), if_pos h1]
  rfl

theorem run (n : Nat) : Statement (.run n) := by
  intro hw
  simp only [Instr.wf, Bool.and_eq_true, decide_eq_true_eq] at hw
  have h := runByte_toNat hw.1 hw.2
  exact ⟨_, _, rfl, rfl, chunkLen_one (by omega) (by omega)⟩

theorem rgb (r g b : Byte) : Statement (.rgb r g b) := fun _ => ⟨_, _, rfl, rfl, rfl⟩

theorem rgba (r g b a : Byte) : Statement (.rgba r g b a) := fun _ => ⟨_, _, rfl, rfl, rfl⟩

end Sys2Proof.Laws.ChunkShape
end

