-- ==== Sys2Proof/Laws/Placement.lean ====
section
/-! SUPPORT. Placing a chunk for the next step keeps the canonical form of every memory. -/

namespace Sys2Proof.Machine

theorem Memory.wf_below {α : Type} {m : Memory α} (a : Nat) (h : Memory.wf m = true) :
    Memory.wf (Memory.below m a) = true ∧ ∀ e ∈ Memory.below m a, e.1 < a := by
  refine ⟨?_, fun e he => by simpa using (List.mem_filter.mp he).2⟩
  induction m with
  | nil => rfl
  | cons d m ih =>
    obtain ⟨k, u⟩ := d
    have ⟨h1, h2⟩ := (Memory.wf_cons ..).mp h
    simp only [Memory.below, List.filter_cons]
    split
    · exact (Memory.wf_cons ..).mpr ⟨fun e he => h1 e (List.mem_filter.mp he).1, ih h2⟩
    · exact ih h2

theorem Memory.wf_append {α : Type} {m m' : Memory α} (a : Nat) (h : Memory.wf m = true)
    (h' : Memory.wf m' = true) (hm : ∀ e ∈ m, e.1 < a) (hm' : ∀ e ∈ m', a ≤ e.1) :
    Memory.wf (m ++ m') = true := by
  induction m with
  | nil => exact h'
  | cons d m ih =>
    obtain ⟨k, u⟩ := d
    have ⟨h1, h2⟩ := (Memory.wf_cons ..).mp h
    have hk : k < a := hm _ (List.mem_cons_self ..)
    refine (Memory.wf_cons ..).mpr ⟨fun e he => ?_, ih h2 fun e he => hm e (List.mem_cons_of_mem _ he)⟩
    rcases List.mem_append.mp he with he | he
    · exact h1 e he
    · exact hk.trans_le (hm' e he)

theorem placeChunk_memWf (bs : List Byte) {s : State} (h : s.memWf = true) : (placeChunk bs s).memWf = true := by
  simp only [State.memWf, Bool.and_eq_true] at h ⊢
  obtain ⟨⟨⟨h1, h2⟩, h3⟩, h4⟩ := h
  have load : ∀ t, t = loadChunk bs s → (((Memory.wf t.enc.src = true ∧ Memory.wf t.enc.dst = true) ∧
      Memory.wf t.dec.src = true) ∧ Memory.wf t.dec.dst = true) := by
    rintro _ rfl
    exact ⟨⟨⟨h1, h2⟩, Memory.wf_ofList _⟩, rfl⟩
  unfold placeChunk
  split
  · exact load _ rfl
  · exact load _ rfl
  · have ⟨h5, h6⟩ := Memory.wf_below s.dec.pos.toNat h3
    exact ⟨⟨⟨h1, h2⟩, Memory.wf_append s.dec.pos.toNat h5 (Memory.wf_ofListFrom ..) h6
      fun e he => Memory.mem_ofListFrom he⟩, h4⟩
  · exact load _ rfl
  · exact load _ rfl
  · exact load _ rfl

theorem withFetchWord_memWf (s : State) (nbits w : Nat) (h : s.memWf = true) :
    (s.withFetchWord nbits w).memWf = true := placeChunk_memWf _ h

end Sys2Proof.Machine
end

