-- ==== Sys2Proof/Laws/Runs.lean ====
section
/-! SUPPORT. Runs of one engine put end to end. -/

namespace Sys2Proof.Machine

theorem encSteps_add (a b : Nat) (s : State) :
    encSteps (a + b) s = match encSteps a s with
      | .next t => encSteps b t | .fault r => .fault r | .refused r => .refused r := by
  induction a generalizing s with
  | zero => rw [Nat.zero_add]; rfl
  | succ a ih =>
    rw [Nat.add_right_comm]
    simp only [encSteps]
    cases encStep s with
    | next t => exact ih t
    | fault r => rfl
    | refused r => rfl

theorem encSteps_trans {a b : Nat} {s t u : State} (h1 : encSteps a s = .next t) (h2 : encSteps b t = .next u) :
    encSteps (a + b) s = .next u := by rw [encSteps_add, h1]; exact h2

theorem encSteps_one {s t : State} (h : encStep s = .next t) : encSteps 1 s = .next t := by simp only [encSteps, h]

theorem decSteps_add (a b : Nat) (s : State) :
    decSteps (a + b) s = match decSteps a s with
      | .next t => decSteps b t | .fault r => .fault r | .refused r => .refused r := by
  induction a generalizing s with
  | zero => rw [Nat.zero_add]; rfl
  | succ a ih =>
    rw [Nat.add_right_comm]
    simp only [decSteps]
    cases decStep s with
    | next t => exact ih t
    | fault r => rfl
    | refused r => rfl

theorem decSteps_trans {a b : Nat} {s t u : State} (h1 : decSteps a s = .next t) (h2 : decSteps b t = .next u) :
    decSteps (a + b) s = .next u := by rw [decSteps_add, h1]; exact h2

theorem decSteps_one {s t : State} (h : decStep s = .next t) : decSteps 1 s = .next t := by simp only [decSteps, h]

end Sys2Proof.Machine
end

