-- ==== Sys2Proof/Tests/Slice0.lean ====
section
/-! SUPPORT. Small tests whose expected results are the spec's own (the worked examples and the vectors of
95_test_vectors.md), and a named witness for the hypotheses of each statement. -/

namespace Sys2Proof.Tests

open Sys2Proof.Machine

/-! ### Ill-formed terms are refused, one for each check (R114, R120) -/

theorem test_wf_refuses_diff_red : (Instr.diff 2 0 0).wf = false := by decide
theorem test_wf_refuses_diff_green : (Instr.diff 0 (-3) 0).wf = false := by decide
theorem test_wf_refuses_diff_blue : (Instr.diff 0 0 2).wf = false := by decide
theorem test_wf_refuses_luma_green : (Instr.luma 32 0 0).wf = false := by decide
theorem test_wf_refuses_luma_green_low : (Instr.luma (-33) 0 0).wf = false := by decide
theorem test_wf_refuses_luma_red : (Instr.luma 0 (-9) 0).wf = false := by decide
theorem test_wf_refuses_luma_blue : (Instr.luma 0 0 8).wf = false := by decide
theorem test_wf_refuses_run_zero : (Instr.run 0).wf = false := by decide
theorem test_wf_refuses_run_63 : (Instr.run 63).wf = false := by decide

/-! ### Words written out bit by bit (R111 to R116), both ways -/

theorem test_decode_idx : decode [0b00_001001] = .ok (.idx 9, []) := by decide
/-- V16: field 3 is a delta of 1, field 0 is -2; red lies in bits 5:4. -/
theorem test_decode_diff : decode [0b01_11_01_00] = .ok (.diff 1 (-1) (-2), []) := by decide
/-- V17: `B9 3D` is LUMA 25 -5 5. -/
theorem test_decode_luma : decode [0b10_111001, 0b0011_1101] = .ok (.luma 25 (-5) 5, []) := by decide
/-- R114: `FD` is the longest run. -/
theorem test_decode_run : decode [0b11_111101] = .ok (.run 62, []) := by decide
theorem test_decode_rgb : decode [0b11111110, 1, 2, 3] = .ok (.rgb 1 2 3, []) := by decide
theorem test_decode_rgba : decode [0b11111111, 1, 2, 3, 4] = .ok (.rgba 1 2 3 4, []) := by decide
theorem test_decode_no_byte : decode [] = .error .noByte := by decide
theorem test_decode_truncated : decode [0xFF, 1, 2, 3] = .error (.truncated "RGBA") := by decide
/-- V16: DIFF -2 -2 -2 is `40`. -/
theorem test_encode_diff : encode (.diff (-2) (-2) (-2)) = [0x40] := by decide
/-- V17: LUMA 0 -8 7 is `A0 0F`. -/
theorem test_encode_luma : encode (.luma 0 (-8) 7) = [0xA0, 0x0F] := by decide
/-- The first byte of a table word is its low byte. -/
theorem test_table_word_luma : decodeTableWord 16 0x3DB9 = some (.luma 25 (-5) 5) := by decide
/-- Bits above `nbits` are 0. -/
theorem test_table_word_rgba : decodeTableWord 8 0xABFF = some (.rgba 0 0 0 0) := by decide

/-! ### The shared units -/

/-- V9. -/
theorem test_hash : pixelHash ⟨10, 20, 30, 255⟩ = 9 ∧ pixelHash ⟨255, 255, 255, 255⟩ = 38 := by decide
/-- V11: W = 2^32 - 1, i = 2^32. -/
theorem test_coord : lin2x 0xFFFFFFFF (2 ^ 32) = 1 ∧ lin2y 0xFFFFFFFF (2 ^ 32) = 1 := by decide
/-- V35. -/
theorem test_delta : delta .plain 10 200 = -190 ∧ delta .wrap 10 200 = 66 ∧ swrap8 (-129) = 127 := by decide

/-! ### One step of the decoder -/

/-- The decoder scanning a W x 1 image whose chunk region holds bs, its first pixels written. -/
def scanning (W : U32) (bs : List Byte) (prev : Pixel) (done : List Pixel) : State :=
  let s := loadChunk bs State.reset
  { s with
    dec :=
      { s.dec with
        W := W
        prev := prev
        p := BitVec.ofNat 64 done.length
        dst := Memory.ofList done } }

/-- A field of the decoder after a step; none where the step stops. -/
def decAfter {α : Type} (o : Host.Outcome State Fault Refusal) (f : DecState → α) : Option α :=
  match o with
  | .next t => some (f t.dec)
  | .fault _ => none
  | .refused _ => none

/-- A field of the encoder after a step; none where the step stops. -/
def encAfter {α : Type} (o : Host.Outcome State Fault Refusal) (f : EncState → α) : Option α :=
  match o with
  | .next t => some (f t.enc)
  | .fault _ => none
  | .refused _ => none

def black : Pixel := ⟨0, 0, 0, 255⟩

/-- R213 with D16, V21: an unwritten slot reads position 0. -/
theorem test_idx_reads_position_zero :
    decAfter (decStep (scanning 2 [0x05] ⟨10, 20, 30, 255⟩ [⟨10, 20, 30, 255⟩]))
      (fun d => (d.prev, d.p, cacheRead d.cache 9, d.phase)) =
    some (⟨10, 20, 30, 255⟩, 2, 1, .finish) := by decide
/-- V30: (5, 14). -/
theorem test_idx_unwritten :
    decAfter (decStep (scanning 1 [0x35] black [])) (fun d => (d.phase, d.cause, d.epos)) =
    some (.error, 5, 14) := by decide
/-- V22: `40` from black wraps. -/
theorem test_diff_wraps :
    decAfter (decStep (scanning 1 [0x40] black [])) (fun d => (d.prev, d.pos)) =
    some (⟨254, 254, 254, 255⟩, 15) := by decide
/-- V22: cache[59] = 1. -/
theorem test_diff_cache :
    decAfter (decStep (scanning 2 [0x74] ⟨10, 10, 10, 255⟩ [⟨10, 10, 10, 255⟩]))
      (fun d => (d.prev, cacheRead d.cache 59)) = some (⟨11, 9, 8, 255⟩, 1) := by decide
/-- V23: `80 00`. -/
theorem test_luma_wraps :
    decAfter (decStep (scanning 1 [0x80, 0x00] black [])) (fun d => (d.prev, d.pos)) =
    some (⟨216, 224, 216, 255⟩, 16) := by decide
/-- V28: (3, 14). -/
theorem test_luma_truncated :
    decAfter (decStep (scanning 1 [0x80] black [])) (fun d => (d.phase, d.cause, d.epos)) =
    some (.error, 3, 14) := by decide
/-- V24: `C2`. -/
theorem test_run_three :
    decAfter (decStep (scanning 3 [0xC2] black [])) (fun d => (d.dst, cacheRead d.cache 53, d.pos)) =
    some ([(0, black), (1, black), (2, black)], 2, 15) := by decide
/-- V29: (4, 14). -/
theorem test_run_overflows :
    decAfter (decStep (scanning 1 [0xC1] black [])) (fun d => (d.phase, d.cause, d.epos)) =
    some (.error, 4, 14) := by decide
/-- V20, second row: alpha from prev. -/
theorem test_rgb_alpha :
    decAfter (decStep (scanning 2 [0xFE, 1, 2, 3] ⟨9, 9, 9, 128⟩ [⟨9, 9, 9, 128⟩]))
      (fun d => (d.prev, cacheRead d.cache 34)) = some (⟨1, 2, 3, 128⟩, 1) := by decide
/-- V28: (3, 14). -/
theorem test_rgb_truncated :
    decAfter (decStep (scanning 1 [0xFE, 1] black [])) (fun d => (d.cause, d.epos)) = some (3, 14) := by decide
/-- V20, first row: the chunk ends exactly at the end-marker region. -/
theorem test_rgba :
    decAfter (decStep (scanning 1 [0xFF, 1, 2, 3, 4] black [])) (fun d => (d.prev, d.pos, d.phase)) =
    some (⟨1, 2, 3, 4⟩, 19, .finish) := by decide
/-- V28: (3, 14). -/
theorem test_rgba_truncated :
    decAfter (decStep (scanning 1 [0xFF, 1, 2] black [])) (fun d => (d.cause, d.epos)) = some (3, 14) := by decide

/-! ### The other steps of the decoder -/

/-- V1's buffer. -/
def blackBuffer : List Byte :=
  [0x71, 0x6F, 0x69, 0x66, 0, 0, 0, 1, 0, 0, 0, 1, 4, 0, 0xC0, 0, 0, 0, 0, 0, 0, 0, 1]

/-- R203's worked example. -/
theorem test_header_step :
    decAfter (decStep (beginDecode blackBuffer 1 State.reset))
      (fun d => (d.W, d.H, d.chan, d.cs, d.pos, d.phase)) = some (1, 1, 4, 0, 14, .chunks) := by decide
/-- V26: the first 3 bytes of MAGIC. -/
theorem test_bad_magic :
    decAfter (decStep (beginDecode [0x71, 0x6F, 0x69] 1 State.reset)) (fun d => (d.phase, d.cause, d.epos)) =
    some (.error, 1, 0) := by decide
/-- V27: MAGIC only. -/
theorem test_short_input :
    decAfter (decStep (beginDecode [0x71, 0x6F, 0x69, 0x66] 1 State.reset)) (fun d => (d.cause, d.epos)) =
    some (2, 4) := by decide
/-- V32, second row: (6, 14). -/
theorem test_underflow :
    decAfter (decStep { State.reset with
        dec := { (scanning 1 [] black []).dec with phase := .finish } }) (fun d => (d.cause, d.epos)) =
    some (6, 14) := by decide
/-- D24: the host cannot supply the surface. -/
theorem test_no_surface :
    decAfter (decStep (beginDecode blackBuffer 0 State.reset)) (fun d => d.phase) = none := by decide

/-! ### One step of the encoder -/

/-- The encoder at pixel i of a 1-row image, with a run pending. -/
def coding (mode : DeltaMode) (pixels : List Pixel) (i : Nat) (prev : Pixel) (run : BitVec 6) : State :=
  let s := beginEncode (BitVec.ofNat 32 pixels.length) 1 pixels State.reset
  { s with
    cfg := { s.cfg with deltaMode := mode }
    enc := { s.enc with phase := .pixels, i := BitVec.ofNat 64 i, prev := prev, run := run } }

/-- R161's worked example. -/
theorem test_enc_header :
    encAfter (encStep (beginEncode 1 1 [black] State.reset)) (fun e => (Memory.units e.dst, e.opos, e.phase)) =
    some ([0x71, 0x6F, 0x69, 0x66, 0, 0, 0, 1, 0, 0, 0, 1, 4, 0], 14, .pixels) := by decide
/-- V12: the 62nd pixel of a run emits `FD` at once. -/
theorem test_enc_run_cap :
    encAfter (encStep (coding .plain [black, black] 0 black 61)) (fun e => (Memory.units e.dst, e.run)) =
    some ([0xFD], 0) := by decide
/-- V10, pixel 2: the owed run comes first. -/
theorem test_enc_flush_then_rgb :
    encAfter (encStep (coding .plain [black, black, ⟨10, 20, 30, 255⟩, black] 2 black 2))
      (fun e => (Memory.units e.dst, e.run, cacheRead e.cache 9)) = some ([0xC1, 0xFE, 10, 20, 30], 0, 2) := by
  decide
/-- V15, pixel 2: an alpha change that is a cache hit is IDX. -/
theorem test_enc_idx :
    encAfter (encStep (coding .plain [⟨5, 5, 5, 0⟩, ⟨5, 5, 5, 255⟩, ⟨5, 5, 5, 0⟩] 2 ⟨5, 5, 5, 255⟩ 0))
      (fun e => (Memory.units e.dst, e.phase)) = some ([0x0B], .finish) := by decide
/-- V6: pixel 0 is never IDX. -/
theorem test_enc_pixel_zero :
    encAfter (encStep (coding .plain [⟨0, 0, 0, 0⟩] 0 black 0)) (fun e => Memory.units e.dst) =
    some [0xFF, 0, 0, 0, 0] := by decide
/-- V31, first row: `5A` under WRAP. -/
theorem test_enc_wrap :
    encAfter (encStep (coding .wrap [⟨255, 0, 0, 255⟩, black] 0 black 0)) (fun e => Memory.units e.dst) =
    some [0x5A] := by decide
/-- V17: `A0 0F`. -/
theorem test_enc_luma :
    encAfter (encStep (coding .plain [⟨100, 100, 100, 255⟩, ⟨92, 100, 107, 255⟩] 1 ⟨100, 100, 100, 255⟩ 0))
      (fun e => Memory.units e.dst) = some [0xA0, 0x0F] := by decide
/-- R169's worked example. -/
theorem test_enc_finish :
    encAfter (encStep { State.reset with enc := { (coding .plain [black] 1 black 1).enc with phase := .finish } })
      (fun e => (Memory.units e.dst, e.phase)) = some ([0xC0, 0, 0, 0, 0, 0, 0, 0, 1], .done) := by decide

/-! ### The step, the host port and a placed instruction -/

theorem test_fetch_run :
    decAfter (step (State.reset.withFetchWord 8 0xC2)) (fun d => (d.dst, d.pos)) =
    some ([(0, black), (1, black), (2, black)], 15) := by decide
theorem test_fetch_rgba :
    decAfter (step (State.reset.withFetchWord 40 0x04030201FF)) (fun d => d.prev) = some ⟨1, 2, 3, 4⟩ := by decide
theorem test_reset_stays : decAfter (step State.reset) (fun d => d.phase) = some .idle := by decide
theorem test_host_start_runs :
    decAfter (step (State.reset.withAgenda [.host (.startDecode blackBuffer 1)])) (fun d => (d.phase, d.len)) =
    some (.header, 23) := by decide

/-! ### Witnesses: what each statement supposes can be met, at the ends of its ranges

Each theorem is named after its statement and gives a state and operands that meet the hypotheses together. -/

theorem witness_DecodeOfEncodeIsIdentity :
    (Instr.diff (-2) 1 0).wf = true ∧ (Instr.luma (-32) 7 (-8)).wf = true ∧ (Instr.luma 31 (-8) 7).wf = true ∧
    (Instr.run 1).wf = true ∧ (Instr.run 62).wf = true := by decide
theorem witness_EncodeOfDecodeIsIdentity : decode [0xFD, 7] = .ok (.run 62, [7]) := by decide
/-- The first and the last byte of each range. -/
theorem witness_FirstByteSelectsKind :
    decode [0x00] = .ok (.idx 0, []) ∧ decode [0x3F] = .ok (.idx 63, []) ∧
    decode [0x40] = .ok (.diff (-2) (-2) (-2), []) ∧ decode [0x7F] = .ok (.diff 1 1 1, []) ∧
    decode [0x80, 0x00] = .ok (.luma (-32) (-8) (-8), []) ∧ decode [0xBF, 0xFF] = .ok (.luma 31 7 7, []) ∧
    decode [0xC0] = .ok (.run 1, []) ∧ decode [0xFD] = .ok (.run 62, []) ∧
    decode [0xFE, 0, 0, 0] = .ok (.rgb 0 0 0, []) ∧ decode [0xFF, 0, 0, 0, 0] = .ok (.rgba 0 0 0 0, []) := by
  decide
theorem witness_LengthFollowsFirstByte :
    bits 0x80 7 6 = 2 ∧ bits 0xBF 7 6 = 2 ∧
    ((0xFD : Byte) ≠ 0xFF ∧ (0xFD : Byte) ≠ 0xFE ∧ bits 0xFD 7 6 ≠ 2) ∧ bits 0x00 7 6 ≠ 2 ∧
    chunkLen 0xFF ≤ [1, 2, 3, 4].length + 1 ∧ [1, 2, 3].length + 1 < chunkLen 0xFF := by decide
theorem witness_RunByteRange : (1 ≤ 1 ∧ 1 ≤ 62) ∧ (1 ≤ 62 ∧ 62 ≤ 62) := by decide
/-- A hit of V15: pixel 2 against slot 11. -/
theorem witness_HashUsesLowSixBits :
    cacheHit ⟨5, 5, 5, 0⟩ (coding .plain [⟨5, 5, 5, 0⟩, ⟨5, 5, 5, 255⟩] 1 black 0).enc = some true := by decide
theorem witness_CoordinatesAreABijection :
    0 < (1 : U32).toNat * (1 : U32).toNat ∧ 18446744065119617024 < (0xFFFFFFFF : U32).toNat * (0xFFFFFFFF : U32).toNat ∧
    0xFFFFFFFE < (0xFFFFFFFF : U32).toNat := by decide
theorem witness_ClassifiedChunkIsWellFormed : fitsDiff .plain ⟨11, 9, 8, 255⟩ ⟨10, 10, 10, 255⟩ = true := by decide

/-- A chunk that ends exactly at the end-marker region, writing the last pixel. -/
theorem witness_RgbaWritesItsPixel :
    ((scanning 1 [0xFF, 1, 2, 3, 4] black []).dec.pos.toNat + 5 + 8 =
        (scanning 1 [0xFF, 1, 2, 3, 4] black []).dec.len.toNat ∧
      (scanning 1 [0xFF, 1, 2, 3, 4] black []).dec.p.toNat + 1 = (scanning 1 [0xFF, 1, 2, 3, 4] black []).dec.N) ∧
    (scanning 1 [0xFF, 1, 2, 3] black []).dec.len.toNat + 1 =
      (scanning 1 [0xFF, 1, 2, 3] black []).dec.pos.toNat + 5 + 8 := by decide

/-- R55 holds where the header step of a loaded chunk buffer has just ended. -/
theorem loaded_scanning {bs : List Byte} (h0 : 0 < bs.length) (h : bs.length < 1000) (s : State) :
    DecScanning (loadChunk bs s).dec ∧ (loadChunk bs s).dec.p = 0 ∧ (loadChunk bs s).dec.phase = .chunks := by
  have hbuf : ∀ b : List Byte, b.length < 2000 →
      DecInv (latchHeader 62 1 Config.channelsOut Config.colorspaceOut (beginDecode b 62 s).dec) ∨ b.length < 22 := by
    intro b hb
    by_cases hl : 22 ≤ b.length
    · have hI := decInv_beginDecode (n := 62) (s := s) (bs := b) (by omega)
      simp only [DecInv, beginDecode_dec_phase] at hI
      exact .inl (decInv_latch hI.1 rfl (by simp; omega))
    · exact .inr (by omega)
  have hl : (headerBytes s.cfg.magic 62 1 Config.channelsOut Config.colorspaceOut ++ bs ++ Config.endMarker).length =
      bs.length + 22 := by
    have : Config.endMarker.length = 8 := rfl
    simp [length_headerBytes, this]; omega
  have hI := (hbuf _ (by rw [hl]; omega)).resolve_right (by rw [hl]; omega)
  have hph : (loadChunk bs s).dec.phase = .chunks := by
    show (if Config.hdrLen + Config.endLen < (beginDecode _ 62 s).dec.len.toNat then DecPhase.chunks else .finish) = _
    rw [if_pos]
    rw [beginDecode_dec_len, hl]
    simp [Config.hdrLen, Config.endLen]; omega
  have hI' : DecInv (loadChunk bs s).dec := hI
  simp only [DecInv, hph] at hI'
  exact ⟨hI'.1, rfl, hph⟩

theorem witness_RgbTakesAlphaFromPrev :
    ((scanning 1 [0xFE, 1, 2, 3] black []).dec.pos.toNat + 4 + 8 = (scanning 1 [0xFE, 1, 2, 3] black []).dec.len.toNat ∧
      (scanning 1 [0xFE, 1, 2, 3] black []).dec.p.toNat + 1 = (scanning 1 [0xFE, 1, 2, 3] black []).dec.N) ∧
    (scanning 1 [0xFE, 1, 2] black []).dec.len.toNat + 1 = (scanning 1 [0xFE, 1, 2] black []).dec.pos.toNat + 4 + 8 ∧
    (DecScanning (loadChunk [0xFE, 1, 2, 3] State.reset).dec ∧ (loadChunk [0xFE, 1, 2, 3] State.reset).dec.p = 0) := by
  refine ⟨by decide, by decide, ?_⟩
  have h := loaded_scanning (bs := [0xFE, 1, 2, 3]) (by decide) (by decide) State.reset
  exact ⟨h.1, h.2.1⟩
theorem witness_IdxReadsBackItsSlot :
    (((scanning 2 [0x05] black [⟨1, 2, 3, 4⟩]).dec.pixRead
        (cacheRead (scanning 2 [0x05] black [⟨1, 2, 3, 4⟩]).dec.cache 5).toNat = some ⟨1, 2, 3, 4⟩ ∧
      (scanning 2 [0x05] black [⟨1, 2, 3, 4⟩]).dec.p.toNat + 1 = (scanning 2 [0x05] black [⟨1, 2, 3, 4⟩]).dec.N)) ∧
    (scanning 1 [0x35] black []).dec.written (cacheRead (scanning 1 [0x35] black []).dec.cache 53).toNat = false := by
  decide
theorem witness_UnwrittenRefOnlyAtFirstPixel : DecScanning (loadChunk [0x35] State.reset).dec :=
  (loaded_scanning (by decide) (by decide) State.reset).1
theorem witness_DiffAddsItsDeltas :
    bits 0x40 7 6 = 1 ∧ bits 0x7F 7 6 = 1 ∧
    (scanning 1 [0x40] black []).dec.p.toNat + 1 = (scanning 1 [0x40] black []).dec.N := by decide
theorem witness_LumaAddsItsDeltas :
    bits 0x80 7 6 = 2 ∧ bits 0xBF 7 6 = 2 ∧
    ((scanning 1 [0x80, 0] black []).dec.pos.toNat + 2 + 8 = (scanning 1 [0x80, 0] black []).dec.len.toNat ∧
      (scanning 1 [0x80, 0] black []).dec.p.toNat + 1 = (scanning 1 [0x80, 0] black []).dec.N) ∧
    (scanning 1 [0x80] black []).dec.len.toNat + 1 = (scanning 1 [0x80] black []).dec.pos.toNat + 2 + 8 := by decide
theorem witness_RunReplaysPrev :
    ((0xC0 : Byte).toNat = 0xC0 ∧ (0xFD : Byte).toNat = 0xFD) ∧
    (scanning 62 [0xFD] black []).dec.p.toNat + (bits 0xFD 5 0 + 1) = (scanning 62 [0xFD] black []).dec.N ∧
    (scanning 61 [0xFD] black []).dec.N + 1 = (scanning 61 [0xFD] black []).dec.p.toNat + (bits 0xFD 5 0 + 1) ∧
    (DecScanning (loadChunk [0xC0] State.reset).dec ∧ (loadChunk [0xC0] State.reset).dec.p = 0) := by
  refine ⟨by decide, by decide, by decide, ?_⟩
  have h := loaded_scanning (bs := [0xC0]) (by decide) (by decide) State.reset
  exact ⟨h.1, h.2.1⟩
/-- A 1-byte, a multi-byte and an IDX chunk past the last pixel. -/
theorem witness_OverflowRaisesAtChunkStart :
    ((Instr.run 2).wf = true ∧ (scanning 1 [0xC1] black []).dec.N < (scanning 1 [0xC1] black []).dec.p.toNat + 2) ∧
    ((scanning 1 [0xFF, 1, 2, 3, 4] black [black]).dec.N <
        (scanning 1 [0xFF, 1, 2, 3, 4] black [black]).dec.p.toNat + pixelCount (.rgba 1 2 3 4) ∧
      (scanning 1 [0xFF, 1, 2, 3, 4] black [black]).dec.pos.toNat + (Instr.rgba 1 2 3 4).length + 8 ≤
        (scanning 1 [0xFF, 1, 2, 3, 4] black [black]).dec.len.toNat) ∧
    ((scanning 1 [0x00] black [black]).dec.N < (scanning 1 [0x00] black [black]).dec.p.toNat + pixelCount (.idx 0) ∧
      (scanning 1 [0x00] black [black]).dec.written
        (cacheRead (scanning 1 [0x00] black [black]).dec.cache 0).toNat = true) := by decide
/-- A chunk done, with positions and slots it does not write. -/
theorem witness_ChunkFrame :
    (Instr.rgb 1 2 3).wf = true ∧ (scanning 2 [0xFE, 1, 2, 3] black []).dec.phase = .chunks ∧
    decAfter (exec (.rgb 1 2 3) (scanning 2 [0xFE, 1, 2, 3] black [])) (fun d => (d.phase, pixelHash d.prev)) =
      some (.finish, 23) ∧ (22 : Slot) ≠ 23 ∧
    ¬ ((scanning 2 [0xFE, 1, 2, 3] black []).dec.p.toNat ≤ 1 ∧
      1 < (scanning 2 [0xFE, 1, 2, 3] black []).dec.p.toNat + pixelCount (.rgb 1 2 3)) := by decide
theorem witness_FormatErrorEntry :
    Cause.truncatedChunk ≠ .badMagic ∧ Cause.truncatedChunk ≠ .shortInput := by decide
/-- A decoder in ERROR, a move that leaves it and the START that does not. -/
theorem witness_ErrorIsLeftOnlyByStart :
    (raiseFormatError .badMagic 0 State.reset).dec.phase = .error ∧
    decAfter (moveStep .dec (raiseFormatError .badMagic 0 State.reset)) (fun d => d.phase) = some .error ∧
    decAfter (moveStep (.host (.startDecode [] 0)) (raiseFormatError .badMagic 0 State.reset)) (fun d => d.phase) =
      some .header := by decide
theorem spans_beginDecode (bs : List Byte) (h : bs.length < 1000) (s : State) :
    Memory.spans (beginDecode bs 1 s).dec.src (beginDecode bs 1 s).dec.len.toNat := by
  have hI := decInv_beginDecode (n := 1) (s := s) (bs := bs) (by omega)
  simp only [DecInv, beginDecode_dec_phase] at hI
  exact hI.1
/-- V26: 3 bytes, and "abcd" with 20 more. -/
theorem witness_BadMagicRaises :
    (Memory.spans (beginDecode [0x71, 0x6F, 0x69] 1 State.reset).dec.src
        (beginDecode [0x71, 0x6F, 0x69] 1 State.reset).dec.len.toNat ∧
      (beginDecode [0x71, 0x6F, 0x69] 1 State.reset).dec.len.toNat < 4) ∧
    (Memory.spans (beginDecode ([0x61, 0x62, 0x63, 0x64] ++ List.replicate 20 0) 1 State.reset).dec.src
        (beginDecode ([0x61, 0x62, 0x63, 0x64] ++ List.replicate 20 0) 1 State.reset).dec.len.toNat ∧
      (beginDecode ([0x61, 0x62, 0x63, 0x64] ++ List.replicate 20 0) 1 State.reset).dec.bufReads 0 4 ≠
        some [Config.defaults.magic.b0, Config.defaults.magic.b1, Config.defaults.magic.b2,
          Config.defaults.magic.b3]) :=
  ⟨⟨spans_beginDecode _ (by decide) _, by decide⟩, spans_beginDecode _ (by decide) _, by decide⟩
/-- V27: 4 and 21 bytes. -/
theorem witness_ShortInputRaises :
    (4 ≤ (beginDecode [0x71, 0x6F, 0x69, 0x66] 1 State.reset).dec.len.toNat ∧
      (beginDecode [0x71, 0x6F, 0x69, 0x66] 1 State.reset).dec.bufReads 0 4 = some [0x71, 0x6F, 0x69, 0x66]) ∧
    ((beginDecode (blackBuffer.take 21) 1 State.reset).dec.len.toNat < 22 ∧
      (beginDecode (blackBuffer.take 21) 1 State.reset).dec.bufReads 0 4 = some [0x71, 0x6F, 0x69, 0x66]) := by decide
/-- V18's 22 bytes and V1's 23, the surface just supplied and just not. -/
theorem witness_HeaderStepLatches :
    ((beginDecode (headerBytes Config.defaults.magic 0 5 4 0 ++ Config.endMarker) 0 State.reset).dec.src =
        Memory.ofList (headerBytes Config.defaults.magic 0 5 4 0 ++ Config.endMarker) ∧
      (beginDecode (headerBytes Config.defaults.magic 0 5 4 0 ++ Config.endMarker) 0 State.reset).dec.len.toNat =
        14 + Config.endMarker.length ∧ 8 ≤ Config.endMarker.length ∧ (0 : U32).toNat * (5 : U32).toNat ≤ 0) ∧
    ((beginDecode blackBuffer 1 State.reset).dec.src =
        Memory.ofList (headerBytes Config.defaults.magic 1 1 4 0 ++ 0xC0 :: Config.endMarker) ∧
      (1 : U32).toNat * (1 : U32).toNat ≤ (beginDecode blackBuffer 1 State.reset).dec.supply ∧
      (beginDecode blackBuffer 0 State.reset).dec.supply < (1 : U32).toNat * (1 : U32).toNat) := by decide
theorem witness_FinishStepChecksPixelCount :
    ((loadChunk [] State.reset).dec.phase = .finish ∧
      (loadChunk [] State.reset).dec.p.toNat ≠ (loadChunk [] State.reset).dec.N) ∧
    (latchHeader 0 5 4 0 (beginDecode (blackBuffer.take 22) 1 State.reset).dec).phase = .finish ∧
    (latchHeader 0 5 4 0 (beginDecode (blackBuffer.take 22) 1 State.reset).dec).p.toNat =
      (latchHeader 0 5 4 0 (beginDecode (blackBuffer.take 22) 1 State.reset).dec).N := by decide
theorem witness_TruncatedChunkRaises :
    (scanning 1 [0x80] black []).dec.phase = .chunks ∧ (scanning 1 [0x80] black []).dec.bufRead 14 = some 0x80 ∧
    1 < chunkLen 0x80 ∧ (scanning 1 [0x80] black []).dec.len.toNat + 1 =
      (scanning 1 [0x80] black []).dec.pos.toNat + chunkLen 0x80 + 8 := by decide
theorem witness_StepRunsTheDecodedChunk :
    ((scanning 1 [0xFF, 1, 2, 3, 4] black []).withAgenda [.dec]).nextMove = some .dec ∧
    ((scanning 1 [0xFF, 1, 2, 3, 4] black []).withAgenda [.dec]).dec.phase = .chunks ∧
    (Instr.rgba 1 2 3 4).wf = true ∧
    ((scanning 1 [0xFF, 1, 2, 3, 4] black []).withAgenda [.dec]).dec.bufReads 14 5 = some (encode (.rgba 1 2 3 4)) ∧
    14 + (Instr.rgba 1 2 3 4).length + 8 = ((scanning 1 [0xFF, 1, 2, 3, 4] black []).withAgenda [.dec]).dec.len.toNat := by
  decide
/-- A buffer that differs in its last byte only. -/
theorem witness_EndMarkerContentIsInert :
    (∀ a, a + 8 < (loadChunk [0xC0] State.reset).dec.len.toNat →
      Memory.read (Memory.write (loadChunk [0xC0] State.reset).dec.src 22 9) a =
        Memory.read (loadChunk [0xC0] State.reset).dec.src a) ∧
    DecInv (loadChunk [0xC0] State.reset).dec ∧ (loadChunk [0xC0] State.reset).dec.phase = .chunks ∧
    ∃ t, decStep (loadChunk [0xC0] State.reset) = .next t := by
  have h := loaded_scanning (bs := [0xC0]) (by decide) (by decide) State.reset
  have hI : DecInv (loadChunk [0xC0] State.reset).dec := by
    simp only [DecInv, h.2.2]; exact ⟨h.1, by decide⟩
  refine ⟨fun a ha => Memory.read_write_other _ _ ?_, hI, h.2.2, ?_⟩
  · have : (loadChunk [0xC0] State.reset).dec.len.toNat = 23 := by decide
    omega
  · rcases decStep_next hI with h' | ⟨h', -⟩
    · exact h'
    · rw [h.2.2] at h'; simp at h'
/-- An empty buffer and a buffer of two bytes meet the hypotheses of the clauses. -/
theorem witness_EmitAppends :
    (Memory.spans (beginEncode 0 0 [] State.reset).enc.dst 0 ∧
      (beginEncode 0 0 [] State.reset).enc.dst.length + [1].length < 2 ^ 64) ∧
    (Memory.spans (Memory.ofList [(1 : Byte), 2]) 2 ∧ (Memory.ofList [(1 : Byte), 2]).length = 2) :=
  ⟨⟨Memory.spans_nil, by decide⟩, Memory.spans_ofList [1, 2], rfl⟩
/-- R80: an append never rewrites, whatever `enc.opos` says. -/
theorem test_append_past_counting :
    (emit [9] { (coding .plain [] 0 black 0).enc with opos := 0, dst := [(0, 1), (1, 2)] }).dst =
      [(0, 1), (1, 2), (2, 9)] := by decide
theorem witness_EncoderHeaderStep : (beginEncode 1 1 [black] State.reset).enc.phase = .header := by decide
theorem witness_RunPathCountsAndCaps :
    ((coding .plain [black] 0 black 60).enc.phase = .pixels ∧
      (coding .plain [black] 0 black 60).enc.pixRead 0 = some black ∧ (coding .plain [black] 0 black 60).enc.run ≠ 61) ∧
    (coding .plain [black] 0 black 61).enc.run = 61 := by decide
/-- Pixel 0; a hit past it (V15); DIFF, LUMA, RGB and RGBA misses (V16, V17). -/
theorem witness_DifferingPixelEmitsOneChunk :
    ((coding .plain [⟨1, 1, 1, 255⟩] 0 black 0).enc.phase = .pixels ∧
      (coding .plain [⟨1, 1, 1, 255⟩] 0 black 0).enc.pixRead 0 = some ⟨1, 1, 1, 255⟩ ∧
      (coding .plain [⟨1, 1, 1, 255⟩] 0 black 0).enc.i = 0) ∧
    ((coding .plain [⟨5, 5, 5, 0⟩, ⟨5, 5, 5, 0⟩] 1 black 0).enc.i ≠ 0 ∧
      (coding .plain [⟨5, 5, 5, 0⟩, ⟨5, 5, 5, 0⟩] 1 black 0).enc.pixRead
        (cacheRead (coding .plain [⟨5, 5, 5, 0⟩, ⟨5, 5, 5, 0⟩] 1 black 0).enc.cache 11).toNat = some ⟨5, 5, 5, 0⟩) ∧
    fitsDiff .plain ⟨1, 1, 1, 255⟩ black = true ∧
    (fitsDiff .plain ⟨2, 2, 2, 255⟩ black = false ∧ fitsLuma .plain ⟨2, 2, 2, 255⟩ black = true) ∧
    (fitsLuma .plain ⟨132, 132, 132, 255⟩ ⟨100, 100, 100, 255⟩ = false ∧ fitsLuma .plain ⟨0, 0, 0, 254⟩ black = false) := by
  decide
theorem witness_AlphaTransitionIsIdxOrRgba :
    ((5 : Byte) ≠ black.a ∧ (coding .plain [⟨5, 5, 5, 5⟩] 0 black 0).enc.pixRead 0 = some ⟨5, 5, 5, 5⟩) ∧
    ((coding .plain [⟨5, 5, 5, 0⟩, ⟨5, 5, 5, 0⟩] 1 black 0).enc.pixRead 1 = some ⟨5, 5, 5, 0⟩ ∧
      pixelHash ⟨5, 5, 5, 0⟩ = 11 ∧ (coding .plain [⟨5, 5, 5, 0⟩, ⟨5, 5, 5, 0⟩] 1 black 0).enc.pixRead
        (cacheRead (coding .plain [⟨5, 5, 5, 0⟩, ⟨5, 5, 5, 0⟩] 1 black 0).enc.cache 11).toNat = some ⟨5, 5, 5, 0⟩) := by
  decide
theorem witness_EncoderFinishStep :
    ({ (coding .plain [black] 1 black 1).enc with phase := .finish } : EncState).phase = .finish := by decide
/-- Two black pixels from the start, with one more to come. -/
theorem witness_RunBlockIsCutAtSixtyTwo :
    (coding .plain [black, black, black] 0 black 0).enc.phase = .pixels ∧
    (coding .plain [black, black, black] 0 black 0).enc.run = 0 ∧
    (coding .plain [black, black, black] 0 black 0).enc.i.toNat + 2 < (coding .plain [black, black, black] 0 black 0).enc.N ∧
    ∀ j, j < 2 → (coding .plain [black, black, black] 0 black 0).enc.pixRead (0 + j) = some black := by decide
theorem witness_EncodeEndsInNPlusTwoSteps :
    [black].length = (1 : U32).toNat * (1 : U32).toNat ∧ ([] : List Pixel).length = (0 : U32).toNat * (5 : U32).toNat := by
  decide
theorem witness_EncoderFrame :
    (∃ t, encStep (coding .plain [black] 0 black 0) = .next t) ∧ Memory.read [(0, (7 : Byte))] 0 = some 7 :=
  ⟨⟨_, encStep_run rfl (by decide)⟩, by decide⟩
theorem witness_EncodeStartSeeds :
    (State.reset.enc.phase = .idle ∧ 22 + 5 * ((1 : U32).toNat * (1 : U32).toNat) ≤ 27) ∧
    ((coding .plain [] 0 black 0).enc.phase ≠ .idle ∧ (coding .plain [] 0 black 0).enc.phase ≠ .done) := by decide
theorem witness_DecodeStartBinds :
    (State.reset.dec.phase = .idle ∧ blackBuffer.length < 2 ^ 64) ∧
    ((scanning 1 [] black []).dec.phase ≠ .idle ∧ (scanning 1 [] black []).dec.phase ≠ .done ∧
      (scanning 1 [] black []).dec.phase ≠ .error) := by decide
theorem witness_HostProtocol :
    (coding .plain [] 0 black 0).enc.active = true ∧ (scanning 1 [0xC0] black []).dec.active = true ∧
    State.reset.enc.phase ≠ .done ∧ State.reset.dec.phase ≠ .done ∧
    ({ State.reset.enc with phase := .done } : EncState).phase = .done ∧
    ({ State.reset.dec with phase := .done } : DecState).phase = .done := by decide
/-- A move waiting; only DEC, only ENC, and neither running. -/
theorem witness_StepMakesTheNextMove :
    (State.reset.withAgenda [.enc]).host.agenda = [.enc] ∧
    ((scanning 1 [0xC0] black []).host.agenda = [] ∧ (scanning 1 [0xC0] black []).dec.active = true) ∧
    ((coding .plain [] 0 black 0).host.agenda = [] ∧ (coding .plain [] 0 black 0).dec.active = false ∧
      (coding .plain [] 0 black 0).enc.active = true) ∧
    (State.reset.host.agenda = [] ∧ State.reset.dec.active = false ∧ State.reset.enc.active = false) := by decide
/-- Reset meets the invariant, and so does a machine whose two engines both run. -/
theorem witness_Inv :
    State.reset.Inv ∧
    { loadChunk [0xC0] State.reset with enc := (beginEncode 1 1 [black] State.reset).enc }.Inv := by
  refine ⟨⟨by decide, trivial, trivial⟩, by decide, encInv_beginEncode (by decide), ?_⟩
  have h := loaded_scanning (bs := [0xC0]) (by decide) (by decide) State.reset
  show DecInv (loadChunk [0xC0] State.reset).dec
  simp only [DecInv, h.2.2]; exact ⟨h.1, by decide⟩
/-- The step of a machine that runs, for the statements about every step (StepKeepsMemoriesCanonical,
StepKeepsEncoderInvariant, StepKeepsDecoderInvariant, ParametersNeverChange, EnginesShareNothing). -/
theorem witness_StepKeeps :
    (loadChunk [0xC0] State.reset).memWf = true ∧ EncInv (loadChunk [0xC0] State.reset).enc ∧
    DecInv (loadChunk [0xC0] State.reset).dec ∧ (∃ t, step (loadChunk [0xC0] State.reset) = .next t) ∧
    (∃ t, encStep (coding .plain [black] 0 black 0) = .next t) ∧
    ∃ t, decStep (loadChunk [0xC0] State.reset) = .next t := by
  have h := loaded_scanning (bs := [0xC0]) (by decide) (by decide) State.reset
  have hI : DecInv (loadChunk [0xC0] State.reset).dec := by
    simp only [DecInv, h.2.2]; exact ⟨h.1, by decide⟩
  have hd : ∃ t, decStep (loadChunk [0xC0] State.reset) = .next t := by
    rcases decStep_next hI with h' | ⟨h', -⟩
    · exact h'
    · rw [h.2.2] at h'; simp at h'
  exact ⟨by decide, trivial, hI, hd, ⟨_, encStep_run rfl (by decide)⟩, hd⟩
/-- Two machines that differ in what they decoded before. -/
theorem witness_DecodeForgetsEarlierOperations :
    (scanning 1 [0xC0] black []).cfg.magic = (loadChunk [0x00] State.reset).cfg.magic ∧
    (scanning 1 [0xC0] black []).draws = (loadChunk [0x00] State.reset).draws ∧
    decAfter (decSteps 2 (beginDecode blackBuffer 1 (scanning 1 [0xC0] black []))) (fun d => d.phase) =
      some .finish := by decide
theorem witness_DecodeEndsWithinLength : blackBuffer.length < 2 ^ 64 ∧ ([] : List Byte).length < 2 ^ 64 := by decide
theorem witness_DecodeOfEncodeIsTheSurface :
    [black].length = (1 : U32).toNat * (1 : U32).toNat ∧
    encAfter (encSteps 3 (beginEncode 1 1 [black] State.reset)) (fun e => (e.phase, e.dst.length)) =
      some (.done, 23) ∧ 23 < 2 ^ 64 ∧ (1 : U32).toNat * (1 : U32).toNat ≤ 1 := by decide
/-- After the header step of a 1 x 1 surface no run is pending. -/
theorem witness_EnginesRunInLockstep :
    [black].length = (1 : U32).toNat * (1 : U32).toNat ∧ 0 ≤ (1 : U32).toNat * (1 : U32).toNat ∧
    encAfter (encSteps 1 (beginEncode 1 1 [black] State.reset)) (fun e => (e.run, e.dst.length)) = some (0, 14) ∧
    8 ≤ Config.endMarker.length ∧ 14 + Config.endMarker.length < 2 ^ 64 := by decide
theorem witness_EncodeForgetsEarlierOperations :
    State.reset.cfg = (coding .plain [] 0 black 0).cfg ∧
    encAfter (encSteps 2 (beginEncode 1 1 [black] State.reset)) (fun e => e.run) = some 1 := by decide
/-- R62, R261: the header a START has not read yet is not the earlier operation's. -/
theorem test_start_draws_the_header :
    (beginDecode blackBuffer 1 (scanning 1 [0xC0] black [])).dec.W =
      Config.freeU32 (scanning 1 [0xC0] black []).draws 2 := rfl

end Sys2Proof.Tests
end

section
/-! PROOFS. Appending bytes to the encoder's buffer (R15, R77, R80). -/

namespace Sys2Proof.Machine

theorem spans_bufAppend {e : EncState} {n : Nat} (v : Byte) (h : Memory.spans e.dst n) :
    Memory.spans (bufAppend v e).dst (n + 1) := by
  have hw : (bufAppend v e).dst = Memory.write e.dst n v :=
    congrArg (Memory.write e.dst · v) (Memory.next_of_spans h)
  rw [hw]
  exact Memory.spans_write h v

/-- A buffer without gaps stays one without gaps, longer by the bytes appended. -/
theorem spans_emit {e : EncState} {n : Nat} (bs : List Byte) (h : Memory.spans e.dst n) :
    Memory.spans (emit bs e).dst (n + bs.length) := by
  induction bs generalizing e n with
  | nil => exact h
  | cons b bs ih =>
    rw [emit, List.length_cons, Nat.add_comm bs.length, ← Nat.add_assoc]
    exact ih (spans_bufAppend b h)

/-- The k-th byte appended lands k positions past the end of the buffer (R77). -/
theorem emit_read_appended {bs : List Byte} (e : EncState) {k : Nat} (h : k < bs.length) :
    Memory.read (emit bs e).dst (Memory.next e.dst + k) = bs[k]? := by
  rw [emit_read, if_pos (by omega), Nat.add_sub_cancel_left]

/-- Every position outside the appended block reads as before (R80). -/
theorem emit_read_outside {bs : List Byte} {e : EncState} {a : Nat}
    (h : ¬ (Memory.next e.dst ≤ a ∧ a < Memory.next e.dst + bs.length)) :
    Memory.read (emit bs e).dst a = Memory.read e.dst a := by
  rw [emit_read, if_neg h]

/-- Settles O31: the memory and the length register the statement asks for are the ones `emit` leaves, and the end
of a buffer without gaps is the number of positions it spans. -/
theorem emitAppends : Obligations.EmitAppends := by
  unfold Obligations.EmitAppends
  intro bs e
  refine ⟨⟨(emit bs e).dst, (emit bs e).opos, emit_eq bs e, length_emit bs e, ?_, ?_, ?_⟩, ?_, ?_⟩
  · exact fun k hk => emit_read_appended e hk
  · exact fun a ha => emit_read_outside ha
  · exact fun hlen => emit_opos hlen
  · exact fun hspans => ⟨Memory.next_of_spans hspans, spans_emit bs hspans⟩
  · exact fun hspans => Memory.next_of_spans hspans

end Sys2Proof.Machine
end

section
/-! PROOFS. What every step of the machine keeps: one induction principle over `step_cases` and `hostStep_cases`, and
the invariants derived from it (R31, R44, R55, R58, entry 11). -/

namespace Sys2Proof.Machine

/-- A property of the machine is kept by every step when it ignores the host port and is kept by the two STARTs and by
the steps of the two engines. -/
theorem step_keeps {P : State → Prop} {s t : State} (hs : P s) (h : step s = .next t)
    (host : ∀ {s : State} (p : HostState), P s → P { s with host := p })
    (startEncode : ∀ {W H : U32} {px : List Pixel} {s : State}, px.length = W.toNat * H.toNat → P s →
      P (beginEncode W H px s))
    (startDecode : ∀ {bs : List Byte} {supply : Nat} {s : State}, bs.length < 2 ^ 64 → P s →
      P (beginDecode bs supply s))
    (enc : ∀ {s t : State}, P s → encStep s = .next t → P t)
    (dec : ∀ {s t : State}, P s → decStep s = .next t → P t) : P t := by
  rcases step_cases h with rfl | ⟨m, -, hm⟩
  · exact hs
  · have htake : P s.takeMove := host _ hs
    cases m with
    | host a =>
      rcases hostStep_cases hm with ⟨W, H, px, room, -, -, hpx, -, rfl⟩ | ⟨bs, supply, -, -, hbs, rfl⟩ | ⟨v, rfl⟩
      · exact startEncode hpx htake
      · exact startDecode hbs htake
      · exact host _ htake
    | enc => exact enc htake hm
    | dec => exact dec htake hm

/-- A step of ENC keeps its surface and only appends to its buffer (R36, R77). -/
theorem encStep_appends {s t : State} (h : encStep s = .next t) :
    t.enc.src = s.enc.src ∧ t.enc.W = s.enc.W ∧ t.enc.H = s.enc.H ∧ ∃ bs, t.enc.dst = (emit bs s.enc).dst := by
  have hpixel : ∀ bs run px, (afterPixel bs run px s).enc.src = s.enc.src ∧ (afterPixel bs run px s).enc.W = s.enc.W ∧
      (afterPixel bs run px s).enc.H = s.enc.H ∧ ∃ cs, (afterPixel bs run px s).enc.dst = (emit cs s.enc).dst :=
    fun bs run px => ⟨emit_src .., emit_W .., emit_H .., bs, rfl⟩
  rcases encStep_cases h with ⟨-, rfl⟩ | ⟨-, rfl⟩ | ⟨-, h⟩ | ⟨-, rfl⟩ | ⟨-, rfl⟩
  · exact ⟨rfl, rfl, rfl, [], rfl⟩
  · exact ⟨encHeader_src .., encHeader_W .., encHeader_H .., _, encHeader_dst ..⟩
  · obtain ⟨px, -, ⟨-, -, rfl⟩ | ⟨-, -, rfl⟩ | ⟨hit, -, -, rfl⟩⟩ := encPixelStep_cases h
    · exact hpixel ..
    · exact hpixel ..
    · exact hpixel ..
  · refine ⟨encFinish_src .., encFinish_W .., encFinish_H .., owedRun s.enc ++ Config.endMarker, ?_⟩
    rw [encFinish_dst, emit_append]
    exact (emit_congr _ (by rw [flushRun_eq]) (by rw [flushRun_eq])).1
  · exact ⟨rfl, rfl, rfl, [], rfl⟩

/-- Settles O39: ENC writes its own registers only, and appends to its buffer. -/
theorem encoderFrame : Obligations.EncoderFrame := by
  unfold Obligations.EncoderFrame
  intro s t h
  have honly := encStep_only_enc h
  obtain ⟨hsrc, hW, hH, bs, hdst⟩ := encStep_appends h
  refine ⟨by rw [honly], by rw [honly], by rw [honly], by rw [honly], hsrc, hW, hH, fun a b hab => ?_⟩
  rw [hdst]
  exact emit_keeps hab

/-! #### Canonical memories -/

theorem State.memWf_iff (s : State) : s.memWf = true ↔
    (Memory.wf s.enc.src = true ∧ Memory.wf s.enc.dst = true) ∧
      Memory.wf s.dec.src = true ∧ Memory.wf s.dec.dst = true := by
  simp [State.memWf, and_assoc]

/-- A step of DEC keeps its input buffer, and the canonical form of its surface. -/
theorem decStep_memories {s t : State} (h : decStep s = .next t) :
    t.dec.src = s.dec.src ∧ (Memory.wf s.dec.dst = true → Memory.wf t.dec.dst = true) := by
  have hraise : ∀ c e, (raiseFormatError c e s).dec.src = s.dec.src ∧
      (Memory.wf s.dec.dst = true → Memory.wf (raiseFormatError c e s).dec.dst = true) := fun _ _ => ⟨rfl, fun _ => rfl⟩
  rcases decStep_cases h with ⟨-, rfl⟩ | ⟨-, h⟩ | ⟨-, h⟩ | ⟨-, -, rfl⟩ | ⟨-, -, rfl⟩
  · exact ⟨rfl, id⟩
  · rcases decHeaderStep_cases h with rfl | ⟨-, rfl⟩ | ⟨W, H, ch, cs, -, -, rfl⟩
    · exact hraise ..
    · exact hraise ..
    · exact ⟨rfl, fun _ => rfl⟩
  · rcases decChunkStep_next h with ⟨c, rfl⟩ | ⟨i, px, d, -, -, rfl, -, m, rfl, -, -, hm⟩
    · exact hraise ..
    · exact ⟨rfl, hm⟩
  · exact ⟨rfl, id⟩
  · exact hraise ..

/-- Settles O46: a START binds memories made of lists, ENC appends, and DEC writes through canonical writes. -/
theorem stepKeepsMemoriesCanonical : Obligations.StepKeepsMemoriesCanonical := by
  unfold Obligations.StepKeepsMemoriesCanonical
  intro s t hs h
  refine step_keeps (P := fun s => s.memWf = true) hs h (fun _ hs => hs) ?_ ?_ ?_ ?_
  · intro W H px s _ hs
    obtain ⟨-, hd⟩ := s.memWf_iff.mp hs
    exact (State.memWf_iff _).mpr ⟨⟨Memory.wf_ofList px, rfl⟩, hd⟩
  · intro bs supply s _ hs
    obtain ⟨he, -⟩ := s.memWf_iff.mp hs
    exact (State.memWf_iff _).mpr ⟨he, Memory.wf_ofList bs, rfl⟩
  · intro s t hs h
    obtain ⟨⟨hsrc, hdst⟩, hd⟩ := s.memWf_iff.mp hs
    obtain ⟨hsrc', -, -, bs, hdst'⟩ := encStep_appends h
    have hdec : t.dec = s.dec := by rw [encStep_only_enc h]
    rw [State.memWf_iff, hsrc', hdst', hdec]
    exact ⟨⟨hsrc, wf_emit bs hdst⟩, hd⟩
  · intro s t hs h
    obtain ⟨he, hsrc, hdst⟩ := s.memWf_iff.mp hs
    obtain ⟨hsrc', hdst'⟩ := decStep_memories h
    have henc : t.enc = s.enc := by rw [decStep_only_dec h]
    rw [State.memWf_iff, hsrc', henc]
    exact ⟨he, hsrc, hdst' hdst⟩

/-! #### The encoder's invariant -/

theorem encInv_header {e : EncState} (hp : e.phase = .header) : EncInv e ↔
    Memory.spans e.src e.N ∧ e.i = 0 ∧ e.prev = Config.prevInit ∧ e.run = 0 ∧ e.cache = cacheSeed ∧
      e.opos = 0 ∧ e.dst = [] := by
  simp only [EncInv, hp]

theorem encInv_pixels {e : EncState} (hp : e.phase = .pixels) : EncInv e ↔ EncScanning e ∧ e.i.toNat < e.N := by
  simp only [EncInv, hp]

theorem encInv_finish {e : EncState} (hp : e.phase = .finish) : EncInv e ↔ EncScanning e ∧ e.i.toNat = e.N := by
  simp only [EncInv, hp]

/-- A header step or a pixel step ends in PIXELS below the last pixel and in FINISH at it. -/
theorem encInv_of_scanning {e : EncState} (h : EncScanning e)
    (hp : e.phase = if e.i.toNat = e.N then .finish else .pixels) : EncInv e := by
  split at hp
  · next hi => exact (encInv_finish hp).mpr ⟨h, hi⟩
  · next hi => exact (encInv_pixels hp).mpr ⟨h, Nat.lt_of_le_of_ne h.inSurface hi⟩

/-- The header step starts the scan at pixel 0. -/
theorem encHeader_starts {m : Magic} {e : EncState} (h : EncInv e) (hp : e.phase = .header) :
    EncScanning (encHeader m e) ∧ (encHeader m e).i = 0 ∧
      (encHeader m e).phase = if (encHeader m e).i.toNat = (encHeader m e).N then .finish else .pixels := by
  obtain ⟨hsrc, hi, hprev, hrun, hcache, hopos, hdst⟩ := (encInv_header hp).mp h
  have hN : (encHeader m e).N = e.N := by simp [EncState.N]
  refine ⟨scanning_encHeader hsrc hi hprev hrun hcache hopos hdst, by simpa using hi, ?_⟩
  rw [hN, encHeader_i, hi]
  simp [encHeader, eq_comm]

theorem encStep_keeps_encInv {s t : State} (hs : EncInv s.enc) (h : encStep s = .next t) : EncInv t.enc := by
  rcases encStep_cases h with ⟨-, rfl⟩ | ⟨hp, rfl⟩ | ⟨hp, h⟩ | ⟨hp, rfl⟩ | ⟨-, rfl⟩
  · exact hs
  · obtain ⟨hscan, -, hphase⟩ := encHeader_starts hs hp
    exact encInv_of_scanning hscan hphase
  · obtain ⟨hscan, hlt⟩ := (encInv_pixels hp).mp hs
    obtain ⟨hscan', hN, hi, hphase⟩ := scanning_pixelStep hscan hlt h
    exact encInv_of_scanning hscan' (by rw [hphase, hN, hi, hp])
  · obtain ⟨hscan, hi⟩ := (encInv_finish hp).mp hs
    exact encDone_of_finish hscan hi
  · exact hs

/-- Settles O48: a START seeds the invariant and ENC's steps keep it; nobody else writes the encoder. -/
theorem stepKeepsEncoderInvariant : Obligations.StepKeepsEncoderInvariant := by
  unfold Obligations.StepKeepsEncoderInvariant
  intro s t _ hs h
  refine step_keeps (P := fun s => EncInv s.enc) hs h (fun _ hs => hs) ?_ (fun _ hs => hs)
    encStep_keeps_encInv ?_
  · intro W H px s hpx _
    exact encInv_beginEncode hpx
  · intro s t hs h
    rwa [show t.enc = s.enc by rw [decStep_only_dec h]]

/-! #### The decoder's invariant -/

theorem decInv_header {d : DecState} (hp : d.phase = .header) :
    DecInv d ↔ Memory.spans d.src d.len.toNat ∧ d.pos = 0 ∧ d.cause = 0 := by
  simp only [DecInv, hp]

theorem decInv_chunks {d : DecState} (hp : d.phase = .chunks) :
    DecInv d ↔ DecScanning d ∧ d.pos.toNat + 8 < d.len.toNat := by
  simp only [DecInv, hp]

theorem decInv_finish {d : DecState} (hp : d.phase = .finish) :
    DecInv d ↔ DecScanning d ∧ d.pos.toNat + 8 = d.len.toNat := by
  simp only [DecInv, hp]

theorem decInv_raise (c : Cause) (e : U64) (s : State) : DecInv (raiseFormatError c e s).dec := ⟨c, rfl⟩

theorem decChunkStep_keeps_decInv {s t : State} (hp : s.dec.phase = .chunks) (hs : DecInv s.dec)
    (h : decChunkStep s = .next t) : DecInv t.dec := by
  obtain ⟨hscan, hlt⟩ := (decInv_chunks hp).mp hs
  rcases scanning_chunkStep hscan hlt h with ⟨c, rfl⟩ | ⟨i, px, d, hw, rfl, -, hdone, hfits⟩
  · exact decInv_raise ..
  · obtain ⟨hscan', hlen, hpos, hphase⟩ := scanning_chunkDone hw hscan hdone hfits
    split at hphase
    · exact (decInv_finish hphase).mpr ⟨hscan', by rw [hpos, hlen]; omega⟩
    · exact (decInv_chunks (hphase.trans hp)).mpr ⟨hscan', by rw [hpos, hlen]; omega⟩

theorem decStep_keeps_decInv {s t : State} (hs : DecInv s.dec) (h : decStep s = .next t) : DecInv t.dec := by
  rcases decStep_cases h with ⟨-, rfl⟩ | ⟨hp, h⟩ | ⟨hp, h⟩ | ⟨hp, hN, rfl⟩ | ⟨-, -, rfl⟩
  · exact hs
  · obtain ⟨hsrc, -, hcause⟩ := (decInv_header hp).mp hs
    rcases decHeaderStep_cases h with rfl | ⟨-, rfl⟩ | ⟨W, H, ch, cs, hlen, -, rfl⟩
    · exact decInv_raise ..
    · exact decInv_raise ..
    · exact decInv_latch hsrc hcause hlen
  · exact decChunkStep_keeps_decInv hp hs h
  · obtain ⟨hscan, -⟩ := (decInv_finish hp).mp hs
    exact ⟨fun q => hN ▸ hscan.writtenBelow q, hN, hscan.noCause⟩
  · exact decInv_raise ..

/-- Settles O49: a START seeds the invariant and DEC's steps keep it; nobody else writes the decoder. -/
theorem stepKeepsDecoderInvariant : Obligations.StepKeepsDecoderInvariant := by
  unfold Obligations.StepKeepsDecoderInvariant
  intro s t _ hs h
  refine step_keeps (P := fun s => DecInv s.dec) hs h (fun _ hs => hs) (fun _ hs => hs) ?_ ?_
    decStep_keeps_decInv
  · intro bs supply s hbs _
    exact decInv_beginDecode hbs
  · intro s t hs h
    rwa [show t.dec = s.dec by rw [encStep_only_enc h]]

/-- Settles O47: both engines are IDLE at reset and the four memories list nothing. -/
theorem resetMeetsInvariant : Obligations.ResetMeetsInvariant :=
  ⟨(State.memWf_iff _).mpr ⟨⟨rfl, rfl⟩, rfl, rfl⟩, trivial, trivial⟩

/-- Settles O51: each engine's step writes its own engine and the draw counter, and a START its engine. -/
theorem parametersNeverChange : Obligations.ParametersNeverChange := by
  unfold Obligations.ParametersNeverChange
  intro s t h
  refine step_keeps (P := fun u => u.cfg = s.cfg) rfl h (fun _ hs => hs) (fun _ hs => hs) (fun _ hs => hs) ?_ ?_
  · intro u v hu h
    rw [encStep_only_enc h]; exact hu
  · intro u v hu h
    rw [decStep_only_dec h]; exact hu

end Sys2Proof.Machine
end

section
/-! PROOFS. Each engine's step does the same whatever the other engine holds (R31, R84). -/

namespace Sys2Proof.Machine

theorem pixelStep_dec (s : State) (d : DecState) :
    encPixelStep { s with dec := d } = mapNext (fun t => { t with dec := d }) (encPixelStep s) := by
  unfold encPixelStep
  dsimp only
  cases (s.enc.pixRead s.enc.i.toNat).bind fun px => pixelEffect s.cfg.deltaMode px s.enc with
  | none => rfl
  | some e => rfl

/-- ENC's step does not look at the decoder. -/
theorem encStep_dec (s : State) (d : DecState) :
    encStep { s with dec := d } = mapNext (fun t => { t with dec := d }) (encStep s) := by
  unfold encStep
  dsimp only
  cases s.enc.phase with
  | pixels => exact pixelStep_dec s d
  | idle | header | finish | done => rfl

theorem checkedHeader_enc (s : State) (e : EncState) :
    checkedHeader { s with enc := e } = mapNext (fun t => { t with enc := e }) (checkedHeader s) := by
  unfold checkedHeader
  dsimp only
  split
  · rfl
  · split
    · split <;> rfl
    · rfl

theorem decHeaderStep_enc (s : State) (e : EncState) :
    decHeaderStep { s with enc := e } = mapNext (fun t => { t with enc := e }) (decHeaderStep s) := by
  unfold decHeaderStep
  dsimp only
  split
  · rfl
  · split
    · split
      · exact checkedHeader_enc s e
      · rfl
    · rfl

theorem decChunkStep_enc (s : State) (e : EncState) :
    decChunkStep { s with enc := e } = mapNext (fun t => { t with enc := e }) (decChunkStep s) := by
  unfold decChunkStep
  dsimp only
  split
  · rfl
  · split
    · split
      · rfl
      · split
        · exact exec_enc _ s e
        · rfl
    · rfl

theorem decFinishStep_enc (s : State) (e : EncState) :
    decFinishStep { s with enc := e } = mapNext (fun t => { t with enc := e }) (decFinishStep s) := by
  unfold decFinishStep
  dsimp only
  split <;> rfl

/-- DEC's step does not look at the encoder. -/
theorem decStep_enc (s : State) (e : EncState) :
    decStep { s with enc := e } = mapNext (fun t => { t with enc := e }) (decStep s) := by
  unfold decStep
  dsimp only
  cases s.dec.phase with
  | header => exact decHeaderStep_enc s e
  | chunks => exact decChunkStep_enc s e
  | finish => exact decFinishStep_enc s e
  | idle | done | error => rfl

/-- Settles O52: each engine's step writes its own engine only, and does not look at the other. -/
theorem enginesShareNothing : Obligations.EnginesShareNothing := by
  unfold Obligations.EnginesShareNothing
  refine ⟨fun s t h => ?_, fun s t h => ?_, encStep_dec, decStep_enc⟩
  · rw [encStep_only_enc h]
  · rw [decStep_only_dec h]

end Sys2Proof.Machine
end

section
/-! PROOFS. The host port, and whose move a step makes (R30, R33, R56, R269, R292, entries 6 and 7). -/

namespace Sys2Proof.Machine

theorem EncState.startable_of_active {e : EncState} (h : e.active = true) : e.startable = false := by
  unfold EncState.active at h
  unfold EncState.startable
  cases hp : e.phase <;> simp_all

theorem DecState.startable_of_active {d : DecState} (h : d.active = true) : d.startable = false := by
  unfold DecState.active at h
  unfold DecState.startable
  cases hp : d.phase <;> simp_all

/-- Settles O42: an active engine is not startable, and a result read asks for DONE. -/
theorem hostProtocol : Obligations.HostProtocol := by
  unfold Obligations.HostProtocol
  intro s
  refine ⟨fun W H pixels room h => ?_, fun bytes supply h => ?_, fun h => if_neg h, fun h => if_neg h,
    fun h => if_pos h, fun h => if_pos h, rfl, rfl⟩
  · simp [hostStep, hostStartEncode, EncState.startable_of_active h]
  · simp [hostStep, hostStartDecode, DecState.startable_of_active h]

theorem takeMove_of_agenda_nil {s : State} (h : s.host.agenda = []) : s.takeMove = s := by
  obtain ⟨cfg, enc, dec, ⟨agenda, seen⟩, draws⟩ := s
  obtain rfl : agenda = [] := h
  rfl

theorem step_of_nextMove {s : State} {m : Move} (h : s.nextMove = some m) : step s = moveStep m s.takeMove := by
  simp only [step, h]

theorem nextMove_of_agenda_nil {s : State} (h : s.host.agenda = []) :
    s.nextMove = if s.dec.active then some .dec else if s.enc.active then some .enc else none := by
  simp only [State.nextMove, h]

/-- Settles O43: the next move is the oldest of the agenda, or with none that of DEC, then of ENC. -/
theorem stepMakesTheNextMove : Obligations.StepMakesTheNextMove := by
  unfold Obligations.StepMakesTheNextMove
  refine ⟨fun s m ms h => ?_, fun s h => ⟨fun hd => ?_, fun hd he => ?_, fun hd he => ?_⟩⟩
  · have hm : s.nextMove = some m := by simp only [State.nextMove, h]
    rw [step_of_nextMove hm, State.takeMove, h, List.tail_cons]
  · have hm : s.nextMove = some .dec := by rw [nextMove_of_agenda_nil h, if_pos hd]
    rw [step_of_nextMove hm, takeMove_of_agenda_nil h]
    rfl
  · have hm : s.nextMove = some .enc := by simp [nextMove_of_agenda_nil h, hd, he]
    rw [step_of_nextMove hm, takeMove_of_agenda_nil h]
    rfl
  · have hm : s.nextMove = none := by simp [nextMove_of_agenda_nil h, hd, he]
    simp only [step, hm]

end Sys2Proof.Machine
end

section
/-! PROOFS. The bytes of a well-formed chunk decode to it, and the chunk the encoder picks for a pixel is well-formed
and reconstructs that pixel (R118, R146 to R149, R166). -/

namespace Sys2Proof.Machine

/-- The bytes of a well-formed chunk decode to it, whatever follows them. -/
theorem decode_encode {i : Instr} (hw : i.wf = true) (rest : List Byte) :
    decode (encode i ++ rest) = .ok (i, rest) := by
  cases i with
  | idx slot =>
    have hslot := slot.isLt
    have hb : (toByte (0x00 ||| slot.toNat)).toNat = slot.toNat := by rw [Nat.zero_or, toByte_toNat]; omega
    refine (decode_one _ rest (by omega) (by omega)).trans ?_
    rw [decodeByte, if_pos (by rw [bits_tag]; omega), bits_low6, hb, Nat.mod_eq_of_lt hslot, BitVec.ofNat_toNat,
      BitVec.setWidth_eq]
  | diff dr dg db =>
    simp only [Instr.wf, Bool.and_eq_true, inRange_iff] at hw
    obtain ⟨hfields, hlt⟩ := diff_byte (biased 2 dr) (biased 2 dg) (biased 2 db) (by simp [biased]; omega)
      (by simp [biased]; omega) (by simp [biased]; omega)
    refine (decode_one _ rest (by omega) (by omega)).trans ?_
    rw [hfields, biased_eq (by omega), biased_eq (by omega), biased_eq (by omega)]
  | luma dg drg dbg =>
    simp only [Instr.wf, Bool.and_eq_true, inRange_iff] at hw
    obtain ⟨hgreen, htag, hlt⟩ := luma_b0 ⟨biased 32 dg, by simp [biased]; omega⟩
    obtain ⟨hred, hblue⟩ := luma_b1 ⟨biased 8 drg, by simp [biased]; omega⟩ ⟨biased 8 dbg, by simp [biased]; omega⟩
    dsimp only at hgreen htag hlt hred hblue
    rw [encode, List.cons_append, decode_cons, if_neg (byte_ne_ff (by omega)), if_neg (byte_ne_fe (by omega)),
      if_pos htag]
    simp only [List.cons_append, List.nil_append, decodeLuma, hgreen, hred, hblue]
    rw [biased_eq (by omega), biased_eq (by omega), biased_eq (by omega)]
  | run n =>
    simp only [Instr.wf, Bool.and_eq_true, decide_eq_true_eq] at hw
    obtain ⟨h1, h62⟩ := hw
    have hb := runByte_toNat h1 h62
    refine (decode_one _ rest (by omega) (by omega)).trans ?_
    rw [decodeByte, if_neg (by rw [bits_tag]; omega), if_neg (by rw [bits_tag]; omega), bits_low6, hb,
      show (192 + (n - 1)) % 64 + 1 = n by omega]
  | rgb r g b => rfl
  | rgba r g b a => rfl

theorem wf_classify (mode : DeltaMode) (hit : Bool) (px prev : Pixel) :
    (classify mode hit px prev).wf = true := by
  unfold classify
  split
  · rfl
  · split
    · next hfits =>
      simp only [fitsDiff, Bool.and_eq_true] at hfits
      obtain ⟨⟨⟨-, hr⟩, hg⟩, hb⟩ := hfits
      simp only [diffChunk, Instr.wf, hr, hg, hb, Bool.and_self]
    · split
      · next hfits =>
        simp only [fitsLuma, Bool.and_eq_true] at hfits
        obtain ⟨⟨⟨-, hg⟩, hr⟩, hb⟩ := hfits
        simp only [lumaChunk, Instr.wf, hg, hr, hb, Bool.and_self]
      · split <;> rfl

theorem pixelCount_classify (mode : DeltaMode) (hit : Bool) (px prev : Pixel) :
    pixelCount (classify mode hit px prev) = 1 := by
  unfold classify diffChunk lumaChunk
  split
  · rfl
  · split
    · rfl
    · split
      · rfl
      · split <;> rfl

theorem diffPixel_delta (mode : DeltaMode) {px prev : Pixel} (ha : px.a = prev.a) :
    diffPixel prev (delta mode px.r prev.r) (delta mode px.g prev.g) (delta mode px.b prev.b) = px := by
  simp only [diffPixel, addDelta_delta, ← ha]

theorem lumaPixel_delta (mode : DeltaMode) {px prev : Pixel} (ha : px.a = prev.a) :
    lumaPixel prev (delta mode px.g prev.g) (delta mode px.r prev.r - delta mode px.g prev.g)
      (delta mode px.b prev.b - delta mode px.g prev.g) = px := by
  simp only [lumaPixel, add_sub_cancel, addDelta_delta, ← ha]

/-- The picked chunk reconstructs the pixel from the same previous pixel, where an IDX reads it back. -/
theorem chunkPixel_classify (mode : DeltaMode) {hit : Bool} {px : Pixel} {d : DecState}
    (hhit : hit = true → d.pixRead (cacheRead d.cache (pixelHash px)).toNat = some px) :
    chunkPixel (classify mode hit px d.prev) d = some px := by
  unfold classify
  split
  · next h => exact hhit h
  · split
    · next hfits =>
      simp only [fitsDiff, Bool.and_eq_true, decide_eq_true_eq] at hfits
      obtain ⟨⟨⟨ha, -⟩, -⟩, -⟩ := hfits
      exact congrArg some (diffPixel_delta mode ha)
    · split
      · next hfits =>
        simp only [fitsLuma, Bool.and_eq_true, decide_eq_true_eq] at hfits
        obtain ⟨⟨⟨ha, -⟩, -⟩, -⟩ := hfits
        exact congrArg some (lumaPixel_delta mode ha)
      · split
        · next ha => simp only [chunkPixel, rgbPixel, ← ha]
        · rfl

/-- A cache hit reads the whole pixel back, at a pixel past the first (R151, R171). -/
theorem pixRead_of_cacheHit {px : Pixel} {e : EncState} (h : cacheHit px e = some true) :
    e.i ≠ 0 ∧ e.pixRead (cacheRead e.cache (pixelHash px)).toNat = some px := by
  unfold cacheHit at h
  split at h
  · simp at h
  · next h0 =>
    obtain ⟨q, hq, heq⟩ := Option.map_eq_some_iff.mp h
    exact ⟨h0, of_decide_eq_true heq ▸ hq⟩

end Sys2Proof.Machine
end

section
/-! PROOFS. A decoder that has consumed the front of its buffer: what its header step latches and what its chunk step
does when the bytes in front of it are a chunk's. -/

namespace Sys2Proof.Machine

/-- A block inside the buffer, read from its place. -/
theorem bufReads_block {d : DecState} {pre bs rest : List Byte} (h : d.src = Memory.ofList (pre ++ (bs ++ rest))) :
    d.bufReads pre.length bs.length = some bs := by
  refine bufReads_eq_some.mpr ⟨rfl, fun j hj => ?_⟩
  rw [DecState.bufRead, h, Memory.read_ofList, List.getElem?_append_right (by omega), Nat.add_sub_cancel_left,
    List.getElem?_append_left hj]

/-- The decoder has consumed the bytes `done` of the buffer `done ++ rest`, and scans while a chunk can follow. -/
structure Consumed (done rest : List Byte) (d : DecState) : Prop where
  src : d.src = Memory.ofList (done ++ rest)
  len : d.len.toNat = done.length + rest.length
  pos : d.pos.toNat = done.length
  phase : 8 < rest.length → d.phase = .chunks

/-- Where a chunk's bytes stand at `dec.pos` and fit, the chunk step is that chunk's meaning (R206). -/
theorem decChunkStep_of_bytes {i : Instr} {s : State} (hw : i.wf = true)
    (hb : s.dec.bufReads s.dec.pos.toNat i.length = some (encode i))
    (hfits : s.dec.pos.toNat + i.length + 8 ≤ s.dec.len.toNat) : decChunkStep s = exec i s := by
  obtain ⟨b0, tl, hcons⟩ := List.exists_cons_of_ne_nil (encode_ne_nil i)
  have hdec : decode (encode i) = .ok (i, []) := by simpa using decode_encode hw []
  obtain ⟨-, hlen, -, -⟩ := decode_facts (hcons ▸ hdec)
  have hb0 : s.dec.bufRead s.dec.pos.toNat = some b0 := by
    simpa [hcons] using (bufReads_eq_some.mp hb).2 0 (length_pos i)
  have hop : s.dec.operandsFit b0 = true := by
    simp [DecState.operandsFit, (fits_iff ..).mpr (hlen ▸ hfits)]
  rw [hlen] at hb
  simp only [decChunkStep, hb0, hop, if_true, hb, hdec]

/-- A decoder in front of a chunk's bytes does that chunk and stands behind them. -/
theorem decStep_consumes {i : Instr} {px : Pixel} {s : State} {done rest : List Byte}
    (hc : Consumed done (encode i ++ rest) s.dec) (hw : i.wf = true) (hrest : 8 ≤ rest.length)
    (hpx : chunkPixel i s.dec = some px) (hN : s.dec.p.toNat + pixelCount i ≤ s.dec.N) :
    ∃ d, decStep s = .next { s with dec := d } ∧ ChunkDone i px s.dec d ∧ Consumed (done ++ encode i) rest d := by
  obtain ⟨hsrc, hlen, hpos, hphase⟩ := hc
  have hi := length_pos i
  rw [List.length_append, length_encode] at hlen hphase
  have hfits : s.dec.pos.toNat + i.length + 8 ≤ s.dec.len.toNat := by omega
  have hb := bufReads_block hsrc
  rw [length_encode, ← hpos] at hb
  have hchunks : s.dec.phase = .chunks := hphase (by omega)
  obtain ⟨d, hexec, hdone⟩ := exec_ok hw hfits hpx hN
  refine ⟨d, ?_, hdone, ?_⟩
  · simp only [decStep, hchunks]
    rw [decChunkStep_of_bytes hw hb hfits, hexec]
  · obtain ⟨m, rfl, -, -, -⟩ := hdone
    have hpos' := chunkEnd_pos (px := px) (m := m) hfits
    refine ⟨?_, ?_, ?_, fun h8 => ?_⟩
    · show s.dec.src = _
      rw [hsrc, List.append_assoc]
    · show s.dec.len.toNat = _
      rw [hlen, List.length_append, length_encode, Nat.add_assoc]
    · rw [hpos', hpos, List.length_append, length_encode]
    · show (if s.dec.len.toNat ≤ (chunkEnd i px m s.dec).pos.toNat + 8 then _ else s.dec.phase) = _
      rw [if_neg (by omega), hchunks]

/-- The header step on the bytes of a header latches the dimensions those bytes say (R71, R203). -/
theorem decStep_header {s : State} {W H : U32} {ch cs : Byte} {rest : List Byte} {supply : Nat}
    (hrest : 8 ≤ rest.length) (hlen : (headerBytes s.cfg.magic W H ch cs ++ rest).length < 2 ^ 64)
    (hN : W.toNat * H.toNat ≤ supply) :
    decStep (beginDecode (headerBytes s.cfg.magic W H ch cs ++ rest) supply s) =
      .next { beginDecode (headerBytes s.cfg.magic W H ch cs ++ rest) supply s with
        dec := latchHeader W H ch cs (beginDecode (headerBytes s.cfg.magic W H ch cs ++ rest) supply s).dec } := by
  generalize hu : beginDecode (headerBytes s.cfg.magic W H ch cs ++ rest) supply s = u
  have hcfg : u.cfg = s.cfg := by rw [← hu]; rfl
  have hphase : u.dec.phase = .header := by rw [← hu]; rfl
  have hsupply : u.dec.supply = supply := by rw [← hu]; rfl
  have hsrc : u.dec.src = Memory.ofList (headerBytes s.cfg.magic W H ch cs ++ rest) := by rw [← hu]; rfl
  have h22 : 22 ≤ u.dec.len.toNat := by
    rw [List.length_append, length_headerBytes] at hlen
    rw [← hu, beginDecode_dec_len, List.length_append, length_headerBytes, BitVec.toNat_ofNat]
    omega
  have hmagic : u.dec.bufReads 0 4 = some [s.cfg.magic.b0, s.cfg.magic.b1, s.cfg.magic.b2, s.cfg.magic.b3] :=
    bufReads_block (pre := []) (bs := [s.cfg.magic.b0, s.cfg.magic.b1, s.cfg.magic.b2, s.cfg.magic.b3])
      (rest := be32 W ++ be32 H ++ [ch, cs] ++ rest) hsrc
  have hdims : u.dec.bufReads 4 10 = some (be32 W ++ be32 H ++ [ch, cs]) :=
    bufReads_block (pre := [s.cfg.magic.b0, s.cfg.magic.b1, s.cfg.magic.b2, s.cfg.magic.b3])
      (bs := be32 W ++ be32 H ++ [ch, cs]) (rest := rest) hsrc
  simp only [decStep, hphase, decHeaderStep]
  rw [if_neg (by omega), hmagic]
  simp only [hcfg, if_true, checkedHeader]
  rw [if_neg (by omega), hdims]
  simp only [be32, List.cons_append, List.nil_append, ofBe32_be32]
  rw [if_neg]
  show ¬ u.dec.supply < W.toNat * H.toNat
  omega

theorem consumed_latchHeader {s : State} {W H : U32} {ch cs : Byte} {rest : List Byte} {supply : Nat}
    (hlen : (headerBytes s.cfg.magic W H ch cs ++ rest).length < 2 ^ 64) :
    Consumed (headerBytes s.cfg.magic W H ch cs) rest
      (latchHeader W H ch cs (beginDecode (headerBytes s.cfg.magic W H ch cs ++ rest) supply s).dec) := by
  have hlen' : (beginDecode (headerBytes s.cfg.magic W H ch cs ++ rest) supply s).dec.len.toNat = 14 + rest.length := by
    rw [beginDecode_dec_len, BitVec.toNat_ofNat, Nat.mod_eq_of_lt hlen, List.length_append, length_headerBytes]
  refine ⟨rfl, hlen', rfl, fun h8 => ?_⟩
  show (if 22 < (beginDecode _ supply s).dec.len.toNat then DecPhase.chunks else .finish) = _
  rw [if_pos (by omega)]

/-! #### What a chunk done leaves, register by register -/

section
variable {i : Instr} {px : Pixel} {d d' : DecState} (h : ChunkDone i px d d')
include h

theorem ChunkDone.registers : d'.W = d.W ∧ d'.H = d.H ∧ d'.prev = px := by
  obtain ⟨m, rfl, -, -, -⟩ := h
  exact ⟨rfl, rfl, rfl⟩

theorem ChunkDone.position : d'.p.toNat = d.p.toNat + pixelCount i := by
  obtain ⟨m, rfl, hN, -, -⟩ := h
  exact chunkEnd_p hN

theorem ChunkDone.pixRead {q : Nat} (hq : q < d'.p.toNat) :
    d'.pixRead q = if d.p.toNat ≤ q then some px else d.pixRead q := by
  rw [h.position] at hq
  obtain ⟨m, rfl, hN, hm, -⟩ := h
  rw [chunkEnd_pixRead, if_pos (by omega), hm, DecState.pixRead_eq, if_pos (show q < d.N by omega)]
  split
  · rw [if_pos (by omega)]
  · rw [if_neg (by omega)]

theorem ChunkDone.slot (slot : Slot) : cacheRead d'.cache slot =
    if slot = pixelHash px then d.p + BitVec.ofNat 64 (pixelCount i - 1) else cacheRead d.cache slot := by
  obtain ⟨m, rfl, -, -, -⟩ := h
  exact cacheRead_cacheWrite ..

end

end Sys2Proof.Machine
end

section
/-! PROOFS. Lockstep (R61, R220): a forward simulation of the encoder by the decoder that reads its bytes. While a run is
pending the decoder is behind by that run: its pixels, and its slot of the previous pixel. -/

namespace Sys2Proof.Machine

/-- The decoder `d` holds what the encoder `e` holds, but for the pending run. -/
structure Mirrors (e : EncState) (d : DecState) : Prop where
  width : d.W = e.W
  height : d.H = e.H
  prev : d.prev = e.prev
  position : d.p.toNat + e.run.toNat = e.i.toNat
  pixels : ∀ q, q < d.p.toNat → d.pixRead q = e.pixRead q
  pending : ∀ q, d.p.toNat ≤ q → q < e.i.toNat → e.pixRead q = some e.prev
  slots : ∀ slot, cacheRead e.cache slot =
    if e.run ≠ 0 ∧ slot = pixelHash e.prev then e.i - 1 else cacheRead d.cache slot

theorem Mirrors.N_eq {e : EncState} {d : DecState} (h : Mirrors e d) : d.N = e.N := by
  rw [DecState.N, EncState.N, h.width, h.height]

theorem mirrors_encHeader {m : Magic} {e : EncState} {ch cs : Byte} {d : DecState} (hi : e.i = 0)
    (hprev : e.prev = Config.prevInit) (hrun : e.run = 0) (hcache : e.cache = cacheSeed) :
    Mirrors (encHeader m e) (latchHeader e.W e.H ch cs d) := by
  constructor
  · simp
  · simp
  · simp [hprev]
  · simp [hi, hrun]
  · simp
  · simp [hi]
  · simp [hrun, hcache]

/-- A run pixel that is only counted changes nothing the decoder holds. -/
theorem mirrors_counted {bs : List Byte} {run : BitVec 6} {s : State} {d : DecState} (h : Mirrors s.enc d)
    (hi : s.enc.i.toNat < s.enc.N) (hpx : s.enc.pixRead s.enc.i.toNat = some s.enc.prev)
    (hrun : run.toNat = s.enc.run.toNat + 1) : Mirrors (afterPixel bs run s.enc.prev s).enc d := by
  have hi' : (afterPixel bs run s.enc.prev s).enc.i.toNat = s.enc.i.toNat + 1 := EncState.i_succ hi
  have hpos := h.position
  constructor
  · exact h.width.trans (emit_W ..).symm
  · exact h.height.trans (emit_H ..).symm
  · exact h.prev
  · rw [hi']
    show d.p.toNat + run.toNat = _
    omega
  · intro q hq
    rw [afterPixel_pixRead, h.pixels q hq]
  · intro q hq hlt
    rw [afterPixel_pixRead]
    by_cases hqi : q = s.enc.i.toNat
    · rw [hqi, hpx]; rfl
    · exact h.pending q hq (by omega)
  · intro slot
    have hrun0 : run ≠ 0 := by rintro rfl; simp at hrun
    show cacheRead (cacheWrite s.enc.cache (pixelHash s.enc.prev) s.enc.i) slot =
      if run ≠ 0 ∧ slot = pixelHash s.enc.prev then s.enc.i + 1 - 1 else cacheRead d.cache slot
    rw [cacheRead_cacheWrite, h.slots slot, BitVec.add_sub_cancel]
    by_cases hs : slot = pixelHash s.enc.prev
    · rw [if_pos hs, if_pos ⟨hrun0, hs⟩]
    · rw [if_neg hs, if_neg (fun hc => hs hc.2), if_neg (fun hc => hs hc.2)]

/-- The RUN chunk of the pending run brings the decoder level with the encoder. -/
theorem mirrors_flushed {e : EncState} {d d' : DecState} (h : Mirrors e d) (hrun : e.run ≠ 0)
    (hdone : ChunkDone (.run e.run.toNat) e.prev d d') : Mirrors { e with run := 0 } d' := by
  have hpos := h.position
  have hpos' : d'.p.toNat = e.i.toNat := hdone.position.trans hpos
  have hrun0 : e.run.toNat ≠ 0 := fun h0 => hrun (BitVec.eq_of_toNat_eq h0)
  obtain ⟨hW, hH, hprev⟩ := hdone.registers
  constructor
  · exact hW.trans h.width
  · exact hH.trans h.height
  · exact hprev
  · exact hpos'
  · intro q hq
    rw [hdone.pixRead hq]
    split
    · next hle => exact (h.pending q hle (by omega)).symm
    · next hlt => exact h.pixels q (by omega)
  · intro q hle hlt
    have hlt' : q < e.i.toNat := hlt
    omega
  · intro slot
    have hlast : d.p + BitVec.ofNat 64 (e.run.toNat - 1) = e.i - 1 := by bv_omega
    rw [hdone.slot]
    show cacheRead e.cache slot = if (0 : BitVec 6) ≠ 0 ∧ slot = pixelHash e.prev then e.i - 1 else
      if slot = pixelHash e.prev then d.p + BitVec.ofNat 64 (e.run.toNat - 1) else cacheRead d.cache slot
    rw [h.slots slot, if_neg (fun hc : (0 : BitVec 6) ≠ 0 ∧ _ => hc.1 rfl), hlast]
    simp only [ne_eq, hrun, not_false_eq_true, true_and]

/-- A one-pixel chunk of a pixel, done by a decoder that is level with the encoder before it, leaves it level after. -/
theorem mirrors_coded {bs : List Byte} {i : Instr} {px : Pixel} {s : State} {d d' : DecState}
    (h : Mirrors { s.enc with run := 0 } d) (hi : s.enc.i.toNat < s.enc.N)
    (hpx : s.enc.pixRead s.enc.i.toNat = some px) (hcount : pixelCount i = 1) (hdone : ChunkDone i px d d') :
    Mirrors (afterPixel bs 0 px s).enc d' := by
  have hi' : (afterPixel bs 0 px s).enc.i.toNat = s.enc.i.toNat + 1 := EncState.i_succ hi
  have hpos : d.p.toNat = s.enc.i.toNat := h.position
  have hpos' : d'.p.toNat = s.enc.i.toNat + 1 := by rw [hdone.position, hcount, hpos]
  obtain ⟨hW, hH, hprev⟩ := hdone.registers
  constructor
  · exact (hW.trans (show d.W = s.enc.W from h.width)).trans (emit_W ..).symm
  · exact (hH.trans (show d.H = s.enc.H from h.height)).trans (emit_H ..).symm
  · exact hprev
  · exact hpos'.trans hi'.symm
  · intro q hq
    rw [hdone.pixRead hq, afterPixel_pixRead]
    split
    · next hle => rw [show q = s.enc.i.toNat by omega, hpx]
    · next hlt => exact h.pixels q (by omega)
  · intro q hle hlt
    omega
  · intro slot
    have hp : d.p = s.enc.i := BitVec.eq_of_toNat_eq hpos
    have hslot : cacheRead s.enc.cache slot = cacheRead d.cache slot := by simpa using h.slots slot
    rw [hdone.slot, hcount, hp, ← hslot]
    show cacheRead (cacheWrite s.enc.cache (pixelHash px) s.enc.i) slot = _
    rw [cacheRead_cacheWrite]
    simp [afterPixel]

/-- Run on the encoder's bytes `bs` and any bytes that keep an end-marker region, the decoder consumes exactly `bs` and
mirrors the encoder. -/
def Replays (m : Magic) (bs : List Byte) (e : EncState) : Prop :=
  ∀ (rest : List Byte) (supply : Nat) (s : State), s.cfg.magic = m → 8 ≤ rest.length → e.N ≤ supply →
    bs.length + rest.length < 2 ^ 64 →
    ∃ (j : Nat) (u : State), decSteps j (beginDecode (bs ++ rest) supply s) = .next u ∧
      Consumed bs rest u.dec ∧ Mirrors e u.dec

theorem replays_encHeader {m : Magic} {e : EncState} (hi : e.i = 0) (hprev : e.prev = Config.prevInit)
    (hrun : e.run = 0) (hcache : e.cache = cacheSeed) :
    Replays m (headerBytes m e.W e.H Config.channelsOut Config.colorspaceOut) (encHeader m e) := by
  rintro rest supply s rfl hrest hN hlen
  rw [← List.length_append] at hlen
  have hN' : e.W.toNat * e.H.toNat ≤ supply := by simpa [EncState.N] using hN
  exact ⟨1, _, decSteps_one (decStep_header hrest hlen hN'), consumed_latchHeader hlen,
    mirrors_encHeader hi hprev hrun hcache⟩

theorem Replays.imp {m : Magic} {bs : List Byte} {e e' : EncState} (h : Replays m bs e) (hN : e'.N = e.N)
    (himp : ∀ d, Mirrors e d → Mirrors e' d) : Replays m bs e' := by
  intro rest supply s hm hrest hsupply hlen
  obtain ⟨j, u, hsteps, hcons, hmir⟩ := h rest supply s hm hrest (hN ▸ hsupply) hlen
  exact ⟨j, u, hsteps, hcons, himp _ hmir⟩

/-- One more chunk in the buffer is one more step of the decoder. -/
theorem Replays.chunk {m : Magic} {bs : List Byte} {e e' : EncState} {i : Instr} (h : Replays m bs e)
    (hw : i.wf = true) (hN : e'.N = e.N)
    (hchunk : ∀ d, Mirrors e d → ∃ px, chunkPixel i d = some px ∧ d.p.toNat + pixelCount i ≤ d.N ∧
      ∀ d', ChunkDone i px d d' → Mirrors e' d') : Replays m (bs ++ encode i) e' := by
  intro rest supply s hm hrest hsupply hlen
  rw [List.length_append] at hlen
  obtain ⟨j, u, hsteps, hcons, hmir⟩ := h (encode i ++ rest) supply s hm (by rw [List.length_append]; omega)
    (hN ▸ hsupply) (by rw [List.length_append]; omega)
  obtain ⟨px, hpx, hroom, hdone⟩ := hchunk u.dec hmir
  obtain ⟨d, hstep, hd, hcons'⟩ := decStep_consumes hcons hw hrest hpx hroom
  rw [List.append_assoc]
  exact ⟨j + 1, _, decSteps_trans hsteps (decSteps_one hstep), hcons', hdone d hd⟩

/-- The bytes a pending run owes bring the decoder level. -/
theorem Replays.flushed {m : Magic} {bs : List Byte} {e : EncState} (h : Replays m bs e) (hcap : e.run.toNat ≤ 62)
    (hi : e.i.toNat ≤ e.N) : Replays m (bs ++ owedRun e) { e with run := 0 } := by
  unfold owedRun
  by_cases hrun : e.run = 0
  · rw [if_pos hrun, List.append_nil]
    exact h.imp rfl fun d hd => by rw [← hrun]; exact hd
  · rw [if_neg hrun]
    have hrun0 : e.run.toNat ≠ 0 := fun h0 => hrun (BitVec.eq_of_toNat_eq h0)
    refine Replays.chunk (i := .run e.run.toNat) h (by simp [Instr.wf]; omega) rfl fun d hd => ?_
    refine ⟨d.prev, rfl, ?_, fun d' hdone => mirrors_flushed hd hrun (hd.prev ▸ hdone)⟩
    rw [hd.N_eq]
    exact hd.position.trans_le hi

/-- The chunk picked for a differing pixel brings the decoder past it. -/
theorem Replays.coded {m : Magic} {bs bs' : List Byte} {s : State} {hit : Bool} {px : Pixel} (mode : DeltaMode)
    (h : Replays m bs { s.enc with run := 0 }) (hscan : EncScanning s.enc) (hi : s.enc.i.toNat < s.enc.N)
    (hpx : s.enc.pixRead s.enc.i.toNat = some px) (hhit : cacheHit px s.enc = some hit) :
    Replays m (bs ++ encode (classify mode hit px s.enc.prev)) (afterPixel bs' 0 px s).enc := by
  have hcount := pixelCount_classify mode hit px s.enc.prev
  refine h.chunk (wf_classify ..) (afterPixel_N ..) fun d hd => ⟨px, ?_, ?_, fun d' hdone =>
    mirrors_coded hd hi hpx hcount hdone⟩
  · have hprev : s.enc.prev = d.prev := hd.prev.symm
    rw [hprev]
    refine chunkPixel_classify mode fun ht => ?_
    obtain ⟨h0, hread⟩ := pixRead_of_cacheHit (ht ▸ hhit)
    have hpos : d.p.toNat = s.enc.i.toNat := hd.position
    have hslot : cacheRead s.enc.cache (pixelHash px) = cacheRead d.cache (pixelHash px) := by
      simpa using hd.slots (pixelHash px)
    have hbelow := hscan.slots (pixelHash px)
    have h0' : s.enc.i.toNat ≠ 0 := fun h => h0 (BitVec.eq_of_toNat_eq h)
    rw [← hslot, hd.pixels _ (by omega)]
    exact hread
  · have hpos : d.p.toNat = s.enc.i.toNat := hd.position
    have hN : d.N = s.enc.N := hd.N_eq
    omega

/-- A pixel step appends the bytes that bring the decoder along. -/
theorem replays_pixelStep {m : Magic} {bs : List Byte} {s t : State} (h : Replays m bs s.enc)
    (hscan : EncScanning s.enc) (hi : s.enc.i.toNat < s.enc.N) (ht : encPixelStep s = .next t) :
    ∃ bs', t.enc.dst = (emit bs' s.enc).dst ∧ Replays m (bs ++ bs') t.enc := by
  have hcap := hscan.runCap
  obtain ⟨px, hpx, ⟨rfl, h62, rfl⟩ | ⟨rfl, -, rfl⟩ | ⟨hit, -, hhit, rfl⟩⟩ := encPixelStep_cases ht
  · have hcounted : Replays m bs (afterPixel [0xFD] 62 s.enc.prev s).enc :=
      h.imp (afterPixel_N ..) fun d hd => mirrors_counted hd hi hpx (by bv_omega)
    have hi' : (afterPixel [0xFD] 62 s.enc.prev s).enc.i.toNat ≤ (afterPixel [0xFD] 62 s.enc.prev s).enc.N := by
      rw [afterPixel_N]
      exact (EncState.i_succ hi).trans_le hi
    have howed : owedRun (afterPixel [0xFD] 62 s.enc.prev s).enc = [0xFD] :=
      (if_neg (show (62 : BitVec 6) ≠ 0 by decide)).trans (congrArg ([·]) runByte_62)
    have hflushed := hcounted.flushed (Nat.le_refl 62) hi'
    rw [howed] at hflushed
    exact ⟨[0xFD], rfl, hflushed⟩
  · refine ⟨[], rfl, ?_⟩
    rw [List.append_nil]
    exact h.imp (afterPixel_N ..) fun d hd => mirrors_counted hd hi hpx (by bv_omega)
  · refine ⟨_, rfl, ?_⟩
    rw [← List.append_assoc]
    exact (h.flushed (by omega) hscan.inSurface).coded _ hscan hi hpx hhit

/-- The encoder after k of its N pixels, with a buffer the decoder replays. -/
structure Lockstep (N k : Nat) (s : State) : Prop where
  size : s.enc.N = N
  scanning : EncScanning s.enc
  index : s.enc.i.toNat = k
  phase : s.enc.phase = if k = N then .finish else .pixels
  replays : ∃ bs, Buffered bs s.enc ∧ Replays s.cfg.magic bs s.enc

theorem lockstep_header {W H : U32} {pixels : List Pixel} {s t : State} (hpixels : pixels.length = W.toNat * H.toNat)
    (h : encStep (beginEncode W H pixels s) = .next t) : Lockstep (W.toNat * H.toNat) 0 t := by
  obtain rfl : { beginEncode W H pixels s with enc := encHeader s.cfg.magic (beginEncode W H pixels s).enc } = t :=
    Host.Outcome.next.inj h
  obtain ⟨hscan, hi, hphase⟩ := encHeader_starts (m := s.cfg.magic) (encInv_beginEncode (s := s) hpixels) rfl
  have hN : (encHeader s.cfg.magic (beginEncode W H pixels s).enc).N = W.toNat * H.toNat := by simp [EncState.N]
  rw [hN, hi] at hphase
  refine ⟨hN, hscan, by rw [hi]; rfl, hphase, _, ?_, replays_encHeader rfl rfl rfl rfl⟩
  rw [Buffered, encHeader_dst]
  exact buffered_emit (L := []) _ rfl

theorem lockstep_pixel {N k : Nat} {s t : State} (h : Lockstep N k s) (hk : k < N) (ht : encStep s = .next t) :
    Lockstep N (k + 1) t := by
  obtain ⟨hN, hscan, hi, hphase, bs, hbuf, hrep⟩ := h
  rw [if_neg (by omega)] at hphase
  have hpixel : encPixelStep s = .next t := by simpa only [encStep, hphase] using ht
  have hlt : s.enc.i.toNat < s.enc.N := by omega
  obtain ⟨hscan', hN', hi', hphase'⟩ := scanning_pixelStep hscan hlt hpixel
  obtain ⟨bs', hdst, hrep'⟩ := replays_pixelStep hrep hscan hlt hpixel
  refine ⟨by omega, hscan', by omega, by rw [hphase', hi, hN, hphase], bs ++ bs', ?_, ?_⟩
  · rw [Buffered, hdst]
    exact buffered_emit bs' hbuf
  · rwa [show t.cfg = s.cfg by rw [encStep_only_enc ht]]

theorem encSteps_succ_last {k : Nat} {s t : State} (h : encSteps (k + 1) s = .next t) :
    ∃ u, encSteps k s = .next u ∧ encStep u = .next t := by
  rw [encSteps_add] at h
  cases hu : encSteps k s with
  | next u =>
    refine ⟨u, rfl, ?_⟩
    simp only [hu, encSteps] at h
    cases ht : encStep u with
    | next v => simpa only [ht] using h
    | fault r => simp [ht] at h
    | refused r => simp [ht] at h
  | fault r => simp [hu] at h
  | refused r => simp [hu] at h

theorem lockstep_run {W H : U32} {pixels : List Pixel} {k : Nat} {s t : State}
    (hpixels : pixels.length = W.toNat * H.toNat) (hk : k ≤ W.toNat * H.toNat)
    (h : encSteps (k + 1) (beginEncode W H pixels s) = .next t) : Lockstep (W.toNat * H.toNat) k t := by
  induction k generalizing t with
  | zero =>
    obtain ⟨u, hu, hut⟩ := encSteps_succ_last h
    obtain rfl := Host.Outcome.next.inj hu
    exact lockstep_header hpixels hut
  | succ k ih =>
    obtain ⟨u, hu, hut⟩ := encSteps_succ_last h
    exact lockstep_pixel (ih (by omega) hu) hk hut

/-- Settles O57, from the simulation: with no run pending the decoder that mirrors the encoder is level with it. -/
theorem enginesRunInLockstep : Obligations.EnginesRunInLockstep := by
  unfold Obligations.EnginesRunInLockstep
  intro W H pixels k s t hpixels hk h hrun more supply hmore hsupply hlen
  obtain ⟨hN, -, hi, -, bs, hbuf, hrep⟩ := lockstep_run hpixels hk h
  have hunits : Memory.units t.enc.dst = bs := by rw [hbuf]; exact units_ofListFrom 0 bs
  have hbs : t.enc.dst.length = bs.length := by rw [← hunits, Memory.units, List.length_map]
  rw [hunits, hbs]
  obtain ⟨j, u, hsteps, hcons, hmir⟩ := hrep more supply t rfl hmore (hN ▸ hsupply) (hbs ▸ hlen)
  have hpos := hmir.position
  refine ⟨j, u, hsteps, hmir.prev, Cache.ext_read fun slot => ?_, ?_, hcons.pos⟩
  · simpa [hrun] using (hmir.slots slot).symm
  · simpa [hrun, hi] using hpos

end Sys2Proof.Machine
end

section
/-! PROOFS. Chunk encoding: a byte is its fields put back together, what the decoder can answer on a byte list, and
that decoding and encoding undo each other (R110, R117 to R125). -/

namespace Sys2Proof.Machine

/-! #### A byte from its fields -/

theorem toByte_tag_low6 (b : Byte) : toByte (bits b 7 6 <<< 6 ||| bits b 5 0) = b := by
  apply BitVec.eq_of_toNat_eq
  rw [← Nat.shiftLeft_add_eq_or_of_lt (bits_lt b 5 0), toByte_toNat, bits_tag, bits_low6, Nat.shiftLeft_eq]
  omega

theorem toByte_nibbles (b : Byte) : toByte (bits b 7 4 <<< 4 ||| bits b 3 0) = b := by
  apply BitVec.eq_of_toNat_eq
  rw [← Nat.shiftLeft_add_eq_or_of_lt (bits_lt b 3 0), toByte_toNat]
  simp only [bits, Nat.shiftRight_eq_div_pow, Nat.shiftLeft_eq]
  omega

theorem low6_of_pairs (b : Byte) : bits b 5 4 <<< 4 ||| (bits b 3 2 <<< 2 ||| bits b 1 0) = bits b 5 0 := by
  have hb := bits_lt b 3 2
  have hc := bits_lt b 1 0
  rw [← Nat.shiftLeft_add_eq_or_of_lt hc, ← Nat.shiftLeft_add_eq_or_of_lt (by rw [Nat.shiftLeft_eq]; omega)]
  simp only [bits, Nat.shiftRight_eq_div_pow, Nat.shiftLeft_eq]
  omega

theorem biased_unbiased (bias : Int) (n : Nat) : biased bias ((n : Int) - bias) = n := by
  simp [biased]

/-- A 1-byte chunk read from a byte whose tag is not LUMA's is that byte again (R111, R121, R123). -/
theorem encode_decodeByte {b0 : Byte} (htag : bits b0 7 6 ≠ 2) : encode (decodeByte b0) = [b0] := by
  have hb := toByte_tag_low6 b0
  have hlt := bits_lt b0 7 6
  unfold decodeByte
  split
  · next h0 =>
    rw [h0] at hb
    rw [encode, BitVec.toNat_ofNat, Nat.mod_eq_of_lt (bits_lt b0 5 0)]
    exact congrArg ([·]) hb
  · split
    · next h1 =>
      rw [h1] at hb
      rw [encode, biased_unbiased, biased_unbiased, biased_unbiased, Nat.or_assoc, Nat.or_assoc, low6_of_pairs]
      exact congrArg ([·]) hb
    · rw [show bits b0 7 6 = 3 by omega] at hb
      exact congrArg ([·]) hb

/-- A LUMA chunk read from two bytes is those bytes again (R122). -/
theorem encode_decodeLuma {b0 : Byte} (htag : bits b0 7 6 = 2) (b1 : Byte) : encode (decodeLuma b0 b1) = [b0, b1] := by
  have hb := toByte_tag_low6 b0
  rw [htag] at hb
  rw [decodeLuma, encode, biased_unbiased, biased_unbiased, biased_unbiased, toByte_nibbles]
  exact congrArg ([·, b1]) hb

/-! #### What the decoder can answer -/

/-- Inversion of `decode`: the chunk its first byte selects, with the bytes it was read from (R118, R119). -/
theorem decode_cases {b0 : Byte} {bs rest : List Byte} {i : Instr} (h : decode (b0 :: bs) = .ok (i, rest)) :
    (b0 = 0xFF ∧ ∃ r g b a, i = .rgba r g b a ∧ bs = r :: g :: b :: a :: rest) ∨
    (b0 = 0xFE ∧ ∃ r g b, i = .rgb r g b ∧ bs = r :: g :: b :: rest) ∨
    (bits b0 7 6 = 2 ∧ ∃ b1, i = decodeLuma b0 b1 ∧ bs = b1 :: rest) ∨
    (b0 ≠ 0xFF ∧ b0 ≠ 0xFE ∧ bits b0 7 6 ≠ 2 ∧ i = decodeByte b0 ∧ bs = rest) := by
  rw [decode_cons] at h
  split at h
  · next hff =>
    split at h
    · obtain ⟨rfl, rfl⟩ := Prod.mk.inj (Except.ok.inj h)
      exact .inl ⟨hff, _, _, _, _, rfl, rfl⟩
    · simp at h
  · next hff =>
    split at h
    · next hfe =>
      split at h
      · obtain ⟨rfl, rfl⟩ := Prod.mk.inj (Except.ok.inj h)
        exact .inr (.inl ⟨hfe, _, _, _, rfl, rfl⟩)
      · simp at h
    · next hfe =>
      split at h
      · next htag =>
        split at h
        · obtain ⟨rfl, rfl⟩ := Prod.mk.inj (Except.ok.inj h)
          exact .inr (.inr (.inl ⟨htag, _, rfl, rfl⟩))
        · simp at h
      · next htag =>
        obtain ⟨rfl, rfl⟩ := Prod.mk.inj (Except.ok.inj h)
        exact .inr (.inr (.inr ⟨hff, hfe, htag, rfl, rfl⟩))

/-- A list with a first byte is rejected only as truncated (R125). -/
theorem decode_cons_error {b0 : Byte} {bs : List Byte} {e : DecodeError} (h : decode (b0 :: bs) = .error e) :
    ∃ m, e = .truncated m := by
  cases e with
  | truncated m => exact ⟨m, rfl⟩
  | noByte =>
    exfalso
    rw [decode_cons] at h
    split at h
    · split at h <;> simp at h
    · split at h
      · split at h <;> simp at h
      · split at h
        · split at h <;> simp at h
        · simp at h

/-- Settles O1, by the lemma on the bytes of a well-formed chunk. -/
theorem decodeOfEncodeIsIdentity : Obligations.DecodeOfEncodeIsIdentity := by
  unfold Obligations.DecodeOfEncodeIsIdentity
  exact fun _ rest hw => decode_encode hw rest

/-- What decodes encodes to the bytes it was read from. -/
theorem encode_decode {bs rest : List Byte} {i : Instr} (h : decode bs = .ok (i, rest)) : encode i ++ rest = bs := by
  cases bs with
  | nil => simp [decode] at h
  | cons b0 bs =>
    obtain ⟨rfl, r, g, b, a, rfl, rfl⟩ | ⟨rfl, r, g, b, rfl, rfl⟩ | ⟨htag, b1, rfl, rfl⟩ |
      ⟨-, -, htag, rfl, rfl⟩ := decode_cases h
    · rfl
    · rfl
    · rw [encode_decodeLuma htag]; rfl
    · rw [encode_decodeByte htag]; rfl

/-- Settles O2: `decode_facts` says the chunk is well-formed, `encode_decode` that its bytes are those read. -/
theorem encodeOfDecodeIsIdentity : Obligations.EncodeOfDecodeIsIdentity := by
  unfold Obligations.EncodeOfDecodeIsIdentity
  intro bs rest i h
  cases bs with
  | nil => simp [decode] at h
  | cons b0 bs =>
    obtain ⟨hw, -⟩ := decode_facts h
    exact ⟨hw, encode_decode h⟩

/-- The kind of a 1-byte chunk, by its byte's range (R110). -/
theorem decodeByte_cases {b0 : Byte} (hff : b0 ≠ 0xFF) (hfe : b0 ≠ 0xFE) (htag : bits b0 7 6 ≠ 2) :
    (b0.toNat ≤ 0x3F ∧ decodeByte b0 = .idx (BitVec.ofNat 6 b0.toNat)) ∨
    (0x40 ≤ b0.toNat ∧ b0.toNat ≤ 0x7F ∧ ∃ dr dg db, decodeByte b0 = .diff dr dg db) ∨
    (0xC0 ≤ b0.toNat ∧ b0.toNat ≤ 0xFD ∧ decodeByte b0 = .run (b0.toNat - 0xC0 + 1)) := by
  have hff' : b0.toNat ≠ 255 := fun h => hff (BitVec.eq_of_toNat_eq h)
  have hfe' : b0.toNat ≠ 254 := fun h => hfe (BitVec.eq_of_toNat_eq h)
  have hlt := b0.isLt
  unfold decodeByte
  simp only [bits_tag, bits_low6] at htag ⊢
  split
  · exact .inl ⟨by omega, by rw [Nat.mod_eq_of_lt (by omega)]⟩
  · split
    · exact .inr (.inl ⟨by omega, by omega, _, _, _, rfl⟩)
    · exact .inr (.inr ⟨by omega, by omega, by rw [show b0.toNat % 64 = b0.toNat - 0xC0 by omega]⟩)

/-- Settles O3: the decoder's four answers, and the three kinds a single byte can hold. -/
theorem firstByteSelectsKind : Obligations.FirstByteSelectsKind := by
  unfold Obligations.FirstByteSelectsKind
  intro b0 bs rest i h
  obtain ⟨hff, r, g, b, a, rfl, -⟩ | ⟨hfe, r, g, b, rfl, -⟩ | ⟨htag, b1, rfl, -⟩ |
    ⟨hff, hfe, htag, rfl, -⟩ := decode_cases h
  · exact .inr (.inr (.inr (.inr (.inr ⟨hff, r, g, b, a, rfl⟩))))
  · exact .inr (.inr (.inr (.inr (.inl ⟨hfe, r, g, b, rfl⟩))))
  · rw [bits_tag] at htag
    exact .inr (.inr (.inl ⟨by omega, by omega, _, _, _, rfl⟩))
  · obtain hidx | hdiff | hrun := decodeByte_cases hff hfe htag
    · exact .inl hidx
    · exact .inr (.inl hdiff)
    · exact .inr (.inr (.inr (.inl hrun)))

/-- Bytes enough for the chunk the first byte selects decode: the first of them decode exactly, and what follows a
chunk's bytes does not change the answer. -/
theorem decode_of_chunkLen_le {b0 : Byte} {bs : List Byte} (h : chunkLen b0 ≤ bs.length + 1) :
    ∃ i, decode (b0 :: bs) = .ok (i, bs.drop (chunkLen b0 - 1)) ∧ i.length = chunkLen b0 := by
  have hpos := chunkLen_pos b0
  obtain ⟨i, hi, hw, hlen⟩ := decode_exact (b0 := b0) (bs := bs.take (chunkLen b0 - 1))
    (by rw [List.length_take]; omega)
  have hbytes : encode i ++ bs.drop (chunkLen b0 - 1) = b0 :: bs := by
    rw [← List.append_nil (encode i), encode_decode hi, List.cons_append, List.take_append_drop]
  exact ⟨i, hbytes ▸ decode_encode hw _, hlen⟩

/-- Settles O4: the length's four clauses, then the list that holds a chunk and the one that does not. -/
theorem lengthFollowsFirstByte : Obligations.LengthFollowsFirstByte := by
  unfold Obligations.LengthFollowsFirstByte
  intro b0 bs
  refine ⟨fun hff => if_pos hff, ?_, ?_, ?_, decode_of_chunkLen_le, fun hshort => ?_⟩
  · rintro rfl; rfl
  · intro htag
    have hff : b0 ≠ 0xFF := by rintro rfl; exact absurd htag (by decide)
    have hfe : b0 ≠ 0xFE := by rintro rfl; exact absurd htag (by decide)
    rw [chunkLen, if_neg hff, if_neg hfe, if_pos htag]
  · intro hff hfe htag
    rw [chunkLen, if_neg hff, if_neg hfe, if_neg htag]
  · cases hd : decode (b0 :: bs) with
    | ok p =>
      obtain ⟨-, -, hfits, -⟩ := decode_facts hd
      omega
    | error e =>
      obtain ⟨m, rfl⟩ := decode_cons_error hd
      exact ⟨m, rfl⟩

/-- Settles O5, by evaluating the decoder on the seven words. -/
theorem writtenOutWordsDecode : Obligations.WrittenOutWordsDecode := by
  unfold Obligations.WrittenOutWordsDecode
  decide

end Sys2Proof.Machine
end

section
/-! PROOFS. Every chunk's meaning ends in a next state (R125, R206), and a scanning decoder does not look at the end
marker (R105, R217). -/

namespace Sys2Proof.Machine

theorem closeChunk_next (r : Except Cause DecState) (s : State) : ∃ t, closeChunk r s = .next t := by
  cases r with
  | ok d => exact ⟨_, rfl⟩
  | error c => exact ⟨_, rfl⟩

/-- Settles O20: each chunk's meaning is an effect closed as a step, and a closed effect is a next state. -/
theorem everyChunkAnswersNext : Obligations.EveryChunkAnswersNext := by
  unfold Obligations.EveryChunkAnswersNext
  intro i s
  cases i with
  | idx | diff | luma | run | rgb | rgba => exact closeChunk_next _ s

/-! #### Another input buffer -/

/-- Consecutive reads are the same in two decoders whose buffers agree at the positions read. -/
theorem bufReads_congr {d d' : DecState} {pos k : Nat}
    (h : ∀ j, j < k → d'.bufRead (pos + j) = d.bufRead (pos + j)) : d'.bufReads pos k = d.bufReads pos k := by
  refine Option.ext fun bs => ?_
  rw [bufReads_eq_some, bufReads_eq_some]
  exact and_congr_right fun _ => forall₂_congr fun j hj => by rw [h j hj]

theorem decStep_chunks {s : State} (h : s.dec.phase = .chunks) : decStep s = decChunkStep s := by
  simp only [decStep, h]

/-- A multi-byte chunk that reaches into the end-marker region is raised on its first byte alone (R253). -/
theorem decChunkStep_truncated {s : State} {b0 : Byte} (hb : s.dec.bufRead s.dec.pos.toNat = some b0)
    (hlong : 1 < chunkLen b0) (hshort : s.dec.len.toNat < s.dec.pos.toNat + chunkLen b0 + 8) :
    decChunkStep s = .next (raiseFormatError .truncatedChunk s.dec.pos s) := by
  have hfit : s.dec.operandsFit b0 = false := by
    simp only [DecState.operandsFit, DecState.fits, Bool.or_eq_false_iff, decide_eq_false_iff_not]
    omega
  simp [decChunkStep, hb, hfit]

/-- The chunk step does not look at the buffer from the end-marker region on. -/
theorem decChunkStep_setSrc {m : Memory Byte} {s : State}
    (hm : ∀ a, a + 8 < s.dec.len.toNat → Memory.read m a = Memory.read s.dec.src a)
    (hwhole : Memory.spans s.dec.src s.dec.len.toNat) (hp : s.dec.pos.toNat + 8 < s.dec.len.toNat) :
    decChunkStep { s with dec := setSrc m s.dec } =
      mapNext (fun t => { t with dec := setSrc m t.dec }) (decChunkStep s) := by
  obtain ⟨b0, hb⟩ : ∃ b0, s.dec.bufRead s.dec.pos.toNat = some b0 := Memory.spans_read hwhole (by omega)
  have hb' : (setSrc m s.dec).bufRead s.dec.pos.toNat = some b0 := (hm _ hp).trans hb
  obtain ⟨hlong, hshort, hstep⟩ | ⟨i, bs, hbs, hd, hw, hlen, hfits, hstep⟩ := decChunkStep_cases hb hwhole hp
  · rw [hstep]
    exact decChunkStep_truncated (s := { s with dec := setSrc m s.dec }) hb' hlong hshort
  · obtain rfl : encode i = bs := by simpa using encode_decode hd
    have hbs' : (setSrc m s.dec).bufReads s.dec.pos.toNat (chunkLen b0) = some (encode i) := by
      rw [← hbs]
      exact bufReads_congr fun j hj => hm _ (by omega)
    rw [hstep, ← exec_setSrc]
    rw [← hlen] at hbs' hfits
    exact decChunkStep_of_bytes (s := { s with dec := setSrc m s.dec }) hw hbs' hfits

/-- Settles O30: in CHUNKS the step is the chunk step, which does not see where the two buffers differ. -/
theorem endMarkerContentIsInert : Obligations.EndMarkerContentIsInert := by
  unfold Obligations.EndMarkerContentIsInert
  intro s t m hm hinv hphase ht
  obtain ⟨hscan, hp⟩ := (decInv_chunks hphase).mp hinv
  rw [decStep_chunks hphase] at ht
  calc decStep { s with dec := setSrc m s.dec }
      = decChunkStep { s with dec := setSrc m s.dec } := decStep_chunks hphase
    _ = mapNext (fun u => { u with dec := setSrc m u.dec }) (decChunkStep s) := decChunkStep_setSrc hm hscan.whole hp
    _ = .next { t with dec := setSrc m t.dec } := by rw [ht]; rfl

end Sys2Proof.Machine
end

section
/-! PROOFS. The units both engines share: the hash, the coordinates, the channel deltas, the chunk the encoder picks
and the run byte (R140 to R149, R151, R166). -/

namespace Sys2Proof.Machine

/-! #### The hash -/

theorem pixelHash_toNat (px : Pixel) :
    (pixelHash px).toNat = (px.r.toNat * 3 + px.g.toNat * 5 + px.b.toNat * 7 + px.a.toNat * 11) % 64 := by
  simp [pixelHash]

/-- Bits 7:6 of a channel contribute multiples of 64, which the hash drops. -/
theorem pixelHash_toNat_low6 (px : Pixel) : (pixelHash px).toNat =
    (3 * (px.r.toNat % 64) + 5 * (px.g.toNat % 64) + 7 * (px.b.toNat % 64) + 11 * (px.a.toNat % 64)) % 64 := by
  rw [pixelHash_toNat]
  omega

/-- Settles O7: the low-six-bit form, two reds that differ in bit 6 alone, and the whole-pixel test of a hit. -/
theorem hashUsesLowSixBits : Obligations.HashUsesLowSixBits := by
  unfold Obligations.HashUsesLowSixBits
  refine ⟨pixelHash_toNat_low6, ⟨⟨0, 0, 0, 0⟩, ⟨64, 0, 0, 0⟩, by decide, by decide⟩, fun px e hhit => ?_⟩
  obtain ⟨-, hread⟩ := pixRead_of_cacheHit hhit
  exact hread

/-! #### Coordinates -/

theorem lin2x_xy2lin {W : U32} {x : Nat} (y : Nat) (hx : x < W.toNat) : lin2x W (xy2lin W x y) = x :=
  Nat.mul_add_mod_of_lt hx

theorem lin2y_xy2lin {W : U32} {x : Nat} (y : Nat) (hx : x < W.toNat) : lin2y W (xy2lin W x y) = y := by
  rw [lin2y, xy2lin, Nat.add_comm, Nat.add_mul_div_right _ _ (by omega), Nat.div_eq_of_lt hx, Nat.zero_add]

/-- A position of the rectangle has a linear index of the surface: its coordinates are that index's. -/
theorem xy2lin_lt {W H : U32} {x y : Nat} (hx : x < W.toNat) (hy : y < H.toNat) :
    xy2lin W x y < W.toNat * H.toNat := by
  rw [← lin2_inRange, lin2x_xy2lin y hx, lin2y_xy2lin y hx]
  exact ⟨hx, hy⟩

/-- A whole row lies before every position of a later row. -/
theorem xy2lin_lt_of_row_lt {W : U32} {x y y' : Nat} (x' : Nat) (hx : x < W.toNat) (hy : y < y') :
    xy2lin W x y < xy2lin W x' y' :=
  calc xy2lin W x y < (y + 1) * W.toNat := by rw [xy2lin, Nat.succ_mul]; omega
    _ ≤ y' * W.toNat := Nat.mul_le_mul_right _ hy
    _ ≤ xy2lin W x' y' := Nat.le_add_right _ _

/-- Increasing linear index is row-major order (R143). -/
theorem xy2lin_lt_xy2lin_iff {W : U32} {x y x' y' : Nat} (hx : x < W.toNat) (hx' : x' < W.toNat) :
    xy2lin W x y < xy2lin W x' y' ↔ y < y' ∨ (y = y' ∧ x < x') := by
  obtain hlt | rfl | hgt := Nat.lt_trichotomy y y'
  · simp only [hlt, true_or, iff_true]
    exact xy2lin_lt_of_row_lt x' hx hlt
  · simp only [xy2lin, Nat.add_lt_add_iff_left, lt_irrefl, true_and, false_or]
  · have hback := xy2lin_lt_of_row_lt x hx' hgt
    omega

/-- Settles O8: the two maps invert each other, each lands in the other's domain, and rows come in order. -/
theorem coordinatesAreABijection : Obligations.CoordinatesAreABijection := by
  unfold Obligations.CoordinatesAreABijection
  intro W H
  refine ⟨fun i hi => ?_, fun x y hx hy => ⟨xy2lin_lt hx hy, lin2x_xy2lin y hx, lin2y_xy2lin y hx⟩,
    fun x y x' y' hx hx' => xy2lin_lt_xy2lin_iff hx hx'⟩
  obtain ⟨hcol, hrow⟩ := (lin2_inRange W H i).mpr hi
  exact ⟨hcol, hrow, xy2lin_lin2 W i⟩

/-! #### Channel deltas -/

theorem delta_plain_range (cur prev : Byte) : -255 ≤ delta .plain cur prev ∧ delta .plain cur prev ≤ 255 := by
  have hcur := cur.isLt
  have hprev := prev.isLt
  simp only [delta]
  omega

theorem swrap8_range (v : Int) : -128 ≤ swrap8 v ∧ swrap8 v ≤ 127 := by
  simp only [swrap8]
  omega

/-- Settles O9: the delta undoes the wrap in both modes (`addDelta_delta`), and each mode has its range. -/
theorem deltaReconstructsChannel : Obligations.DeltaReconstructsChannel := by
  unfold Obligations.DeltaReconstructsChannel
  intro cur prev
  obtain ⟨hplainLo, hplainHi⟩ := delta_plain_range cur prev
  obtain ⟨hwrapLo, hwrapHi⟩ := swrap8_range ((cur.toNat : Int) - prev.toNat)
  exact ⟨fun mode => addDelta_delta mode cur prev, hplainLo, hplainHi, hwrapLo, hwrapHi⟩

/-! #### The picked chunk -/

/-- Deltas in -2..1 lie in green's -32..31, and two of them differ by at most 3, inside -8..7. -/
theorem fitsLuma_of_fitsDiff {mode : DeltaMode} {px prev : Pixel} (h : fitsDiff mode px prev = true) :
    fitsLuma mode px prev = true := by
  simp only [fitsDiff, fitsLuma, Bool.and_eq_true, inRange_iff] at h ⊢
  obtain ⟨⟨⟨ha, hr⟩, hg⟩, hb⟩ := h
  exact ⟨⟨⟨ha, by omega⟩, by omega⟩, by omega⟩

/-- Settles O10: every pick is well-formed (`wf_classify`), and LUMA's ranges take in DIFF's. -/
theorem classifiedChunkIsWellFormed : Obligations.ClassifiedChunkIsWellFormed := by
  unfold Obligations.ClassifiedChunkIsWellFormed
  exact fun mode hit px prev => ⟨wf_classify mode hit px prev, fitsLuma_of_fitsDiff⟩

/-! #### The run byte -/

/-- Settles O6: the byte's value (`runByte_toNat`) bounds it. -/
theorem runByteRange : Obligations.RunByteRange := by
  unfold Obligations.RunByteRange
  intro n h1 h62
  have hval := runByte_toNat h1 h62
  exact ⟨hval, by omega, by omega⟩

end Sys2Proof.Machine
end

section
/-! PROOFS. The chunk the encoder picks, one equation per case of its priority order (R166, R173 to R177). -/

namespace Sys2Proof.Machine

variable {mode : DeltaMode} {px prev : Pixel}

theorem alpha_eq_of_fitsLuma (h : fitsLuma mode px prev = true) : px.a = prev.a := by
  simp only [fitsLuma, Bool.and_eq_true, decide_eq_true_eq] at h
  obtain ⟨⟨⟨ha, -⟩, -⟩, -⟩ := h
  exact ha

/-- A change of alpha rules DIFF out with LUMA. -/
theorem fits_false_of_alpha_ne (ha : px.a ≠ prev.a) :
    fitsDiff mode px prev = false ∧ fitsLuma mode px prev = false := by
  have hluma : fitsLuma mode px prev = false := Bool.eq_false_iff.mpr fun h => ha (alpha_eq_of_fitsLuma h)
  refine ⟨Bool.eq_false_iff.mpr fun h => ?_, hluma⟩
  rw [fitsLuma_of_fitsDiff h] at hluma
  contradiction

theorem classify_of_fitsDiff (h : fitsDiff mode px prev = true) :
    classify mode false px prev = diffChunk mode px prev := by
  simp [classify, h]

theorem classify_of_fitsLuma (hd : fitsDiff mode px prev = false) (hl : fitsLuma mode px prev = true) :
    classify mode false px prev = lumaChunk mode px prev := by
  simp [classify, hd, hl]

theorem classify_of_alpha_eq (hd : fitsDiff mode px prev = false) (hl : fitsLuma mode px prev = false)
    (ha : px.a = prev.a) : classify mode false px prev = .rgb px.r px.g px.b := by
  simp [classify, hd, hl, ha]

theorem classify_of_alpha_ne (ha : px.a ≠ prev.a) :
    classify mode false px prev = .rgba px.r px.g px.b px.a := by
  obtain ⟨hd, hl⟩ := fits_false_of_alpha_ne (mode := mode) ha
  simp [classify, hd, hl, ha]

/-- Settles O11, by the priority order: DIFF and LUMA add back the deltas they carry, and RGB and RGBA carry the
channels themselves. -/
theorem classifiedChunkReconstructsPixel : Obligations.ClassifiedChunkReconstructsPixel := by
  unfold Obligations.ClassifiedChunkReconstructsPixel
  intro mode px prev
  cases hd : fitsDiff mode px prev with
  | true =>
    rw [classify_of_fitsDiff hd]
    exact diffPixel_delta mode (alpha_eq_of_fitsLuma (fitsLuma_of_fitsDiff hd))
  | false =>
    cases hl : fitsLuma mode px prev with
    | true =>
      rw [classify_of_fitsLuma hd hl]
      exact lumaPixel_delta mode (alpha_eq_of_fitsLuma hl)
    | false =>
      by_cases ha : px.a = prev.a
      · rw [classify_of_alpha_eq hd hl ha]
        exact ⟨by rw [rgbPixel, ← ha], ha⟩
      · rw [classify_of_alpha_ne ha]
        exact ⟨rfl, ha⟩

end Sys2Proof.Machine
end

section
/-! PROOFS. The encoder's header, pixel and finish steps, each with the bytes it appends written out (R161 to R169,
R181). -/

namespace Sys2Proof.Machine

/-! #### The header step -/

theorem be32_eq_extract (v : U32) : be32 v =
    [v.extractLsb' 24 8, v.extractLsb' 16 8, v.extractLsb' 8 8, v.extractLsb' 0 8] := by
  simp only [← toByte_extract]
  rfl

/-- Settles O32: the header's words are their four bytes, most significant first. -/
theorem encoderHeaderStep : Obligations.EncoderHeaderStep := by
  unfold Obligations.EncoderHeaderStep
  intro s hp
  simp only [encStep, hp, encHeader, headerBytes, be32_eq_extract]
  rfl

/-! #### The run path -/

theorem encStep_counts {s : State} (hp : s.enc.phase = .pixels)
    (hpx : s.enc.pixRead s.enc.i.toNat = some s.enc.prev) (hrun : s.enc.run ≠ 61) :
    encStep s = .next (afterPixel [] (s.enc.run + 1) s.enc.prev s) := by
  have h62 : s.enc.run + 1 ≠ 62 := fun h => hrun (by bv_omega)
  rw [encStep_run hp hpx, if_neg h62, if_neg h62]

theorem encStep_caps {s : State} (hp : s.enc.phase = .pixels)
    (hpx : s.enc.pixRead s.enc.i.toNat = some s.enc.prev) (hrun : s.enc.run = 61) :
    encStep s = .next (afterPixel [0xFD] 0 s.enc.prev s) := by
  have h62 : s.enc.run + 1 = 62 := by rw [hrun]; rfl
  rw [encStep_run hp hpx, if_pos h62, if_pos h62]

/-- Settles O33: the run pixel's step, split at the counter's cap. -/
theorem runPathCountsAndCaps : Obligations.RunPathCountsAndCaps := by
  unfold Obligations.RunPathCountsAndCaps
  exact fun s hp hpx => ⟨encStep_counts hp hpx, encStep_caps hp hpx⟩

/-! #### A differing pixel -/

/-- Whether the cache test hits: past pixel 0, and the slot's pixel is this one (R151, R171, R173). -/
def EncState.hits (e : EncState) (px : Pixel) : Prop :=
  e.i ≠ 0 ∧ e.pixRead (cacheRead e.cache (pixelHash px)).toNat = some px

section
variable {px : Pixel} {s : State} (hp : s.enc.phase = .pixels) (hpx : s.enc.pixRead s.enc.i.toNat = some px)
  (hne : px ≠ s.enc.prev)
  (href : s.enc.i = 0 ∨ (s.enc.pixRead (cacheRead s.enc.cache (pixelHash px)).toNat).isSome = true)
include hp hpx hne href

theorem encStep_of_hits (h : s.enc.hits px) :
    encStep s = .next (afterPixel (owedRun s.enc ++ encode (.idx (pixelHash px))) 0 px s) :=
  encStep_differs hp hpx hne ((cacheHit_eq href).trans (congrArg some (decide_eq_true h)))

theorem encStep_of_not_hits (h : ¬ s.enc.hits px) : encStep s = .next
    (afterPixel (owedRun s.enc ++ encode (classify s.cfg.deltaMode false px s.enc.prev)) 0 px s) :=
  encStep_differs hp hpx hne ((cacheHit_eq href).trans (congrArg some (decide_eq_false h)))

end

/-- Settles O34: IDX on a hit, and else the priority order of `classify`, case by case. -/
theorem differingPixelEmitsOneChunk : Obligations.DifferingPixelEmitsOneChunk := by
  unfold Obligations.DifferingPixelEmitsOneChunk
  intro px s hp hpx hne href
  by_cases hhit : s.enc.hits px
  · have ⟨hi, hslot⟩ := hhit
    exact ⟨_, encStep_of_hits hp hpx hne href hhit, fun _ _ => rfl,
      fun hmiss => (hmiss.elim hi (· hslot)).elim⟩
  · exact ⟨_, encStep_of_not_hits hp hpx hne href hhit, fun hi hslot => (hhit ⟨hi, hslot⟩).elim,
      fun _ => ⟨classify_of_fitsDiff, classify_of_fitsLuma,
        fun hd hl => ⟨classify_of_alpha_eq hd hl, classify_of_alpha_ne⟩⟩⟩

theorem encode_idx (slot : Slot) : encode (.idx slot) = [slot.setWidth 8] := by
  have hbyte : toByte (0x00 ||| slot.toNat) = slot.setWidth 8 := BitVec.eq_of_toNat_eq (by simp [toByte])
  exact congrArg ([·]) hbyte

/-- Settles O35: an alpha change rules out the run path, DIFF, LUMA and RGB, so only IDX and RGBA are left. -/
theorem alphaTransitionIsIdxOrRgba : Obligations.AlphaTransitionIsIdxOrRgba := by
  unfold Obligations.AlphaTransitionIsIdxOrRgba
  intro px s hp hpx ha href
  have hne : px ≠ s.enc.prev := fun h => ha (congrArg Pixel.a h)
  refine ⟨fun hhit => ?_, fun hmiss => ?_⟩
  · rw [← encode_idx]
    exact encStep_of_hits hp hpx hne href hhit
  · rw [encStep_of_not_hits hp hpx hne href hmiss, classify_of_alpha_ne ha]
    rfl

/-! #### The finish step -/

/-- Appending does not look at the run counter. -/
theorem emit_setRun (bs : List Byte) (e : EncState) (run : BitVec 6) :
    emit bs { e with run := run } = { emit bs e with run := run } := by
  induction bs generalizing e with
  | nil => rfl
  | cons b bs ih => exact ih (bufAppend b e)

/-- Settles O36: the bytes of the flush and the end marker, appended in one go. -/
theorem encoderFinishStep : Obligations.EncoderFinishStep := by
  unfold Obligations.EncoderFinishStep
  intro s hp
  simp only [encStep, hp, encFinish, flushRun_eq, emit_setRun, emit_append, Config.endMarker]

end Sys2Proof.Machine
end

section
/-! PROOFS. A block of pixels equal to prev, cut into runs of 62 (R163, R164, R180). -/

namespace Sys2Proof.Machine

/-- ENC has gone from s to t over k pixels equal to prev: k / 62 capped runs are out and k % 62 pixels pending. -/
structure RunBlock (k : Nat) (s t : State) : Prop where
  phase : t.enc.phase = .pixels
  size : t.enc.N = s.enc.N
  surface : ∀ j, t.enc.pixRead j = s.enc.pixRead j
  prev : t.enc.prev = s.enc.prev
  index : t.enc.i.toNat = s.enc.i.toNat + k
  pending : t.enc.run.toNat = k % 62
  buffer : t.enc.dst = (emit (List.replicate (k / 62) 0xFD) s.enc).dst
  counter : t.enc.opos = (emit (List.replicate (k / 62) 0xFD) s.enc).opos

theorem runBlock_zero {s : State} (hp : s.enc.phase = .pixels) (hrun : s.enc.run = 0) : RunBlock 0 s s :=
  ⟨hp, rfl, fun _ => rfl, rfl, rfl, by rw [hrun]; rfl, rfl, rfl⟩

/-- One more pixel, given the bytes it adds to the block's. -/
theorem RunBlock.afterPixel {k : Nat} {s t : State} {bs : List Byte} {run : BitVec 6} (h : RunBlock k s t)
    (hlt : s.enc.i.toNat + (k + 1) < s.enc.N) (hrun : run.toNat = (k + 1) % 62)
    (hbs : List.replicate (k / 62) 0xFD ++ bs = List.replicate ((k + 1) / 62) 0xFD) :
    RunBlock (k + 1) s (afterPixel bs run t.enc.prev t) := by
  have hsize := h.size
  have hindex := h.index
  have hi : (t.enc.i + 1).toNat = t.enc.i.toNat + 1 := EncState.i_succ (by omega)
  obtain ⟨hbuffer, hcounter⟩ := emit_congr bs h.buffer h.counter
  refine ⟨?_, ?_, fun j => ?_, h.prev, ?_, hrun, ?_, ?_⟩
  · exact (if_neg (by omega)).trans h.phase
  · exact (afterPixel_N ..).trans hsize
  · exact (afterPixel_pixRead ..).trans (h.surface j)
  · exact hi.trans (by omega)
  · rw [← hbs, emit_append]; exact hbuffer
  · rw [← hbs, emit_append]; exact hcounter

/-- One more pixel equal to prev: it is counted, and the 62nd is emitted with the run it ends. -/
theorem RunBlock.step {k : Nat} {s t : State} (h : RunBlock k s t) (hlt : s.enc.i.toNat + (k + 1) < s.enc.N)
    (hpx : s.enc.pixRead (s.enc.i.toNat + k) = some s.enc.prev) :
    ∃ u, encStep t = .next u ∧ RunBlock (k + 1) s u := by
  have hpx' : t.enc.pixRead t.enc.i.toNat = some t.enc.prev := by rw [h.surface, h.index, h.prev, hpx]
  have hpending := h.pending
  by_cases hrun : t.enc.run = 61
  · have hmod : k % 62 = 61 := by rw [← hpending, hrun]; rfl
    refine ⟨_, encStep_caps h.phase hpx' hrun, h.afterPixel hlt ?_ ?_⟩
    · show 0 = _
      omega
    · rw [show (k + 1) / 62 = k / 62 + 1 by omega, List.replicate_succ']
  · have hmod : k % 62 ≠ 61 := fun h61 => hrun (BitVec.eq_of_toNat_eq (hpending.trans h61))
    refine ⟨_, encStep_counts h.phase hpx' hrun, h.afterPixel hlt ?_ ?_⟩
    · bv_omega
    · rw [show (k + 1) / 62 = k / 62 by omega, List.append_nil]

theorem runBlock_run {k : Nat} {s : State} (hp : s.enc.phase = .pixels) (hrun : s.enc.run = 0)
    (hlt : s.enc.i.toNat + k < s.enc.N)
    (hpx : ∀ j, j < k → s.enc.pixRead (s.enc.i.toNat + j) = some s.enc.prev) :
    ∃ t, encSteps k s = .next t ∧ RunBlock k s t := by
  induction k with
  | zero => exact ⟨s, rfl, runBlock_zero hp hrun⟩
  | succ k ih =>
    obtain ⟨t, ht, hblock⟩ := ih (by omega) fun j hj => hpx j (by omega)
    obtain ⟨u, hu, hblock'⟩ := hblock.step hlt (hpx k (by omega))
    exact ⟨u, encSteps_trans ht (encSteps_one hu), hblock'⟩

/-- Settles O37, by induction on the length of the block (`runBlock_run`). -/
theorem runBlockIsCutAtSixtyTwo : Obligations.RunBlockIsCutAtSixtyTwo := by
  unfold Obligations.RunBlockIsCutAtSixtyTwo
  intro k s hp hrun hlt hpx
  obtain ⟨t, ht, hblock⟩ := runBlock_run hp hrun hlt hpx
  exact ⟨t, ht, hblock.pending, hblock.prev, hblock.index, hblock.phase, Prod.ext hblock.buffer hblock.counter⟩

end Sys2Proof.Machine
end

section
/-! PROOFS. ENCODE from its START to DONE (R160, R178, R179). -/

namespace Sys2Proof.Machine

/-! #### START -/

theorem EncState.startable_iff (e : EncState) : e.startable = true ↔ e.phase = .idle ∨ e.phase = .done := by
  unfold EncState.startable
  cases e.phase <;> decide

theorem beginEncode_N (W H : U32) (pixels : List Pixel) (s : State) :
    (beginEncode W H pixels s).enc.N = W.toNat * H.toNat := rfl

/-- The surface START binds is read back pixel by pixel. -/
theorem beginEncode_pixRead {W H : U32} {pixels : List Pixel} {s : State} {k : Nat}
    (hpixels : pixels.length = W.toNat * H.toNat) (hk : k < pixels.length) :
    (beginEncode W H pixels s).enc.pixRead k = pixels[k]? := by
  rw [EncState.pixRead_eq, beginEncode_N, if_pos (hk.trans_eq hpixels), beginEncode_enc_src, Memory.read_ofList]

/-- Settles O40: the guards of START are the ones supposed, and what it binds is `beginEncode`. -/
theorem encodeStartSeeds : Obligations.EncodeStartSeeds := by
  unfold Obligations.EncodeStartSeeds
  intro W H pixels room s
  refine ⟨fun hphase hpixels hroom => ?_, fun hidle hdone => ⟨.startWhileRunning, ?_⟩⟩
  · refine ⟨(beginEncode W H pixels s).enc, ?_, rfl, rfl, rfl, rfl, rfl, cacheRead_seed, rfl, rfl, rfl,
      fun k hk => beginEncode_pixRead hpixels hk⟩
    rw [hostStep, hostStartEncode, if_pos (s.enc.startable_iff.mpr hphase), if_pos hpixels, if_pos hroom]
    rfl
  · have hbusy : ¬ s.enc.startable = true := fun h => (s.enc.startable_iff.mp h).elim hidle hdone
    rw [hostStep, hostStartEncode, if_neg hbusy]

/-! #### The run -/

/-- ENC does not stop on its way, whatever the number of steps. -/
theorem encSteps_next {s : State} (h : EncInv s.enc) (k : Nat) : ∃ t, encSteps k s = .next t := by
  induction k generalizing s with
  | zero => exact ⟨s, rfl⟩
  | succ k ih =>
    obtain ⟨u, hu⟩ := encStep_next h
    simp only [encSteps, hu]
    exact ih (encStep_keeps_encInv h hu)

theorem encStep_finish {s : State} (hp : s.enc.phase = .finish) :
    encStep s = .next { s with enc := encFinish s.enc } := by
  simp only [encStep, hp]

theorem encFinish_N (e : EncState) : (encFinish e).N = e.N := by
  simp only [EncState.N, encFinish_W, encFinish_H]

theorem encInv_done {e : EncState} (hp : e.phase = .done) : EncInv e ↔
    22 ≤ e.dst.length ∧ e.dst.length ≤ 22 + 5 * e.N ∧ Counted e := by
  simp only [EncInv, hp]

section
variable {W H : U32} {pixels : List Pixel} (hpixels : pixels.length = W.toNat * H.toNat) (s : State)
include hpixels

/-- The header step and then k pixel steps lead to pixel k. -/
theorem encSteps_to_pixel {k : Nat} (hk : k ≤ W.toNat * H.toNat) :
    ∃ t, encSteps (k + 1) (beginEncode W H pixels s) = .next t ∧ Lockstep (W.toNat * H.toNat) k t := by
  obtain ⟨t, ht⟩ := encSteps_next (encInv_beginEncode (s := s) hpixels) (k + 1)
  exact ⟨t, ht, lockstep_run hpixels hk ht⟩

theorem encSteps_not_done {k : Nat} (hk : k < W.toNat * H.toNat + 2) :
    ∃ t, encSteps k (beginEncode W H pixels s) = .next t ∧ t.enc.phase ≠ .done := by
  cases k with
  | zero => exact ⟨_, rfl, by simp⟩
  | succ k =>
    obtain ⟨t, ht, hlock⟩ := encSteps_to_pixel hpixels s (k := k) (by omega)
    refine ⟨t, ht, ?_⟩
    rw [hlock.phase]
    split <;> simp

theorem encSteps_done : ∃ t, encSteps (W.toNat * H.toNat + 2) (beginEncode W H pixels s) = .next t ∧
    t.enc.phase = .done ∧ t.enc.N = W.toNat * H.toNat ∧ EncInv t.enc := by
  obtain ⟨t, ht, hlock⟩ := encSteps_to_pixel hpixels s (Nat.le_refl _)
  have hfinish : t.enc.phase = .finish := by rw [hlock.phase, if_pos rfl]
  have hlast := encSteps_one (encStep_finish hfinish)
  exact ⟨_, encSteps_trans (a := W.toNat * H.toNat + 1) (b := 1) ht hlast, rfl,
    (encFinish_N t.enc).trans hlock.size,
    encDone_of_finish hlock.scanning (hlock.index.trans hlock.size.symm)⟩

end

/-- Settles O38: one header step, N pixel steps that end in FINISH, and one finish step; the invariant in DONE bounds
and places the bytes. -/
theorem encodeEndsInNPlusTwoSteps : Obligations.EncodeEndsInNPlusTwoSteps := by
  unfold Obligations.EncodeEndsInNPlusTwoSteps
  intro W H pixels s hpixels
  refine ⟨?_, fun k hk => encSteps_not_done hpixels s hk⟩
  obtain ⟨t, ht, hdone, hN, hinv⟩ := encSteps_done hpixels s
  obtain ⟨hlow, hhigh, hspans, hopos⟩ := (encInv_done hdone).mp hinv
  exact ⟨t, ht, hdone, hlow, hN ▸ hhigh, hspans, hopos⟩

end Sys2Proof.Machine
end

section
/-! PROOFS. A chunk's meaning, one equation per way it can go: it writes its pixels, it does not fit the region, or it
passes the surface (R206, R208, R211 to R216, R219, R253, R254). -/

namespace Sys2Proof.Machine

/-- A chunk longer than its first byte checks that it fits, and then ends on the pixel its operands reconstruct. -/
theorem exec_of_long {i : Instr} (hlong : i.length ≠ 1) (s : State) :
    ∃ pixel : DecState → Pixel, (∀ d, chunkPixel i d = some (pixel d)) ∧
      exec i s = closeChunk ((need i.length s.dec).bind fun d => finishChunk i.length (pixel d) d) s := by
  cases i with
  | idx | diff | run => exact absurd rfl hlong
  | luma dg drg dbg => exact ⟨fun d => lumaPixel d.prev dg drg dbg, fun _ => rfl, rfl⟩
  | rgb r g b => exact ⟨fun d => rgbPixel d.prev r g b, fun _ => rfl, rfl⟩
  | rgba r g b a => exact ⟨fun _ => ⟨r, g, b, a⟩, fun _ => rfl, rfl⟩

/-- A long chunk that reaches into the end-marker region raises TRUNCATED_CHUNK at its start (R253). -/
theorem exec_truncated {i : Instr} {s : State} (hlong : i.length ≠ 1)
    (hshort : s.dec.len.toNat < s.dec.pos.toNat + i.length + 8) :
    exec i s = .next (raiseFormatError .truncatedChunk s.dec.pos s) := by
  obtain ⟨pixel, -, hexec⟩ := exec_of_long hlong s
  rw [hexec, need_truncated hshort]
  rfl

section
variable {i : Instr} {px : Pixel} {s : State} (hpx : chunkPixel i s.dec = some px)
  (hfits : i.length = 1 ∨ s.dec.pos.toNat + i.length + 8 ≤ s.dec.len.toNat)
include hpx hfits

/-- A chunk of one pixel that passes its truncation and reference checks does what is common to all chunks (R208). -/
theorem exec_onePixel (hcount : pixelCount i = 1) : exec i s = closeChunk (finishChunk i.length px s.dec) s := by
  by_cases hlong : i.length = 1
  · cases i with
    | idx slot =>
      have hread : s.dec.pixRead (cacheRead s.dec.cache slot).toNat = some px := hpx
      simp only [exec, execIdx, readBack, hread, Except.bind, Instr.length]
    | diff dr dg db => obtain rfl := Option.some.inj hpx; rfl
    | run n => obtain rfl : n = 1 := hcount; obtain rfl := Option.some.inj hpx; rfl
    | luma | rgb | rgba => simp [Instr.length] at hlong
  · obtain ⟨pixel, hpixel, hexec⟩ := exec_of_long hlong s
    obtain rfl := Option.some.inj ((hpixel s.dec).symm.trans hpx)
    rw [hexec, need_ok (hfits.resolve_left hlong)]
    rfl

theorem exec_writes (hcount : pixelCount i = 1) (hroom : s.dec.p.toNat < s.dec.N) :
    exec i s = .next (afterChunk i.length px s) := by
  rw [exec_onePixel hpx hfits hcount, finishChunk_ok hroom]
  rfl

theorem exec_overflow (hw : i.wf = true) (hfull : s.dec.N < s.dec.p.toNat + pixelCount i) :
    exec i s = .next (raiseFormatError .pixelOverflow s.dec.pos s) := by
  have one (hcount : pixelCount i = 1) : exec i s = .next (raiseFormatError .pixelOverflow s.dec.pos s) := by
    rw [exec_onePixel hpx hfits hcount, finishChunk_overflow (by omega)]
    rfl
  cases i with
  | run n => exact execRun_overflow (pixelCount_pos hw) s hfull
  | idx | diff | luma | rgb | rgba => exact one rfl

end

/-- An IDX whose reference is unwritten raises at its start (R255). -/
theorem execIdx_unwritten {slot : Slot} {s : State}
    (h : s.dec.written (cacheRead s.dec.cache slot).toNat = false) :
    exec (.idx slot) s = .next (raiseFormatError .unwrittenRef s.dec.pos s) := by
  have hnone : s.dec.pixRead (cacheRead s.dec.cache slot).toNat = none := by simpa [DecState.written] using h
  simp only [exec, execIdx, readBack, hnone, Except.bind, closeChunk]

/-- The state once k replays have left the surface m. -/
def replayed (k : Nat) (m : Memory Pixel) (s : State) : State :=
  { s with dec := { s.dec with dst := m, p := s.dec.p + BitVec.ofNat 64 k } }

theorem replayed_p {k : Nat} {s : State} (m : Memory Pixel) (h : s.dec.p.toNat + k < s.dec.N) :
    (replayed k m s).dec.p.toNat = s.dec.p.toNat + k := by
  have hN := s.dec.N_lt
  show (s.dec.p + BitVec.ofNat 64 k).toNat = _
  rw [BitVec.toNat_add, BitVec.toNat_ofNat]
  omega

/-- A RUN whose pixels fit the surface is done, wherever it lies: one byte is not checked (R206, R216). -/
theorem execRun_done {n : Nat} (hn : 1 ≤ n) {s : State} (hroom : s.dec.p.toNat + n ≤ s.dec.N) :
    ∃ d, exec (.run n) s = .next { s with dec := d } ∧ ChunkDone (.run n) s.dec.prev s.dec d := by
  obtain ⟨m, hreplay, hread, hcanon⟩ := replay_ok (n - 1) s.dec.prev s.dec (by omega)
  have hlast : (replayed (n - 1) m s).dec.p.toNat < s.dec.N := by
    rw [replayed_p m (by omega)]
    omega
  refine ⟨(afterChunk 1 s.dec.prev (replayed (n - 1) m s)).dec, ?_,
    chunkDone_run hn s.dec _ m rfl hread hcanon hroom (replayed (n - 1) m s) rfl⟩
  rw [exec, execRun, hreplay]
  exact congrArg (closeChunk · s) (finishChunk_ok hlast)

/-! #### The chunks whose first byte says their operands -/

theorem decode_diff {b0 : Byte} (htag : bits b0 7 6 = 1) (rest : List Byte) : decode (b0 :: rest) =
    .ok (.diff ((bits b0 5 4 : Int) - 2) ((bits b0 3 2 : Int) - 2) ((bits b0 1 0 : Int) - 2), rest) := by
  have hrange := bits_tag b0
  rw [decode_one b0 rest (by omega) (by omega), decodeByte, if_neg (by omega), if_pos htag]

theorem decode_luma {b0 : Byte} (htag : bits b0 7 6 = 2) (b1 : Byte) (rest : List Byte) :
    decode (b0 :: b1 :: rest) = .ok (decodeLuma b0 b1, rest) := by
  have hrange := bits_tag b0
  rw [decode_cons, if_neg (byte_ne_ff (by omega)), if_neg (byte_ne_fe (by omega)), if_pos htag]

theorem decode_run {b0 : Byte} (hlow : 0xC0 ≤ b0.toNat) (hhigh : b0.toNat ≤ 0xFD) (rest : List Byte) :
    decode (b0 :: rest) = .ok (.run (bits b0 5 0 + 1), rest) := by
  have hrange := bits_tag b0
  rw [decode_one b0 rest (by omega) (by omega), decodeByte, if_neg (by omega), if_neg (by omega)]

/-! #### What R55 says of the registers a chunk reads -/

theorem DecScanning.prev_first {d : DecState} (h : DecScanning d) (hp : d.p = 0) : d.prev = ⟨0, 0, 0, 255⟩ := by
  have hprev := h.prevIsLast
  rwa [if_pos hp] at hprev

/-- Settles O15: a slot holds a position below `dec.p`, or 0 while none is written. -/
theorem unwrittenRefOnlyAtFirstPixel : Obligations.UnwrittenRefOnlyAtFirstPixel := by
  unfold Obligations.UnwrittenRefOnlyAtFirstPixel
  intro slot s hscan
  have hslot := hscan.slots slot
  rw [← Bool.not_eq_true, hscan.writtenBelow]
  constructor
  · intro hunwritten
    exact BitVec.eq_of_toNat_eq (show s.dec.p.toNat = 0 by omega)
  · intro hp
    simp [hp]

/-- Settles O12: a one-pixel chunk of five bytes, on its four operands. -/
theorem rgbaWritesItsPixel : Obligations.RgbaWritesItsPixel := by
  unfold Obligations.RgbaWritesItsPixel
  intro r g b a rest s
  exact ⟨rfl, fun hfits hroom => exec_writes rfl (.inr hfits) rfl hroom, fun hshort => exec_truncated (nofun) hshort⟩

/-- Settles O13: a one-pixel chunk of four bytes, whose alpha is prev's; before the first pixel prev is opaque black. -/
theorem rgbTakesAlphaFromPrev : Obligations.RgbTakesAlphaFromPrev := by
  unfold Obligations.RgbTakesAlphaFromPrev
  intro r g b rest s
  exact ⟨rfl, fun hfits hroom => exec_writes rfl (.inr hfits) rfl hroom, fun hshort => exec_truncated (nofun) hshort,
    fun hscan hp => by rw [hscan.prev_first hp]⟩

/-- Settles O14: a one-pixel chunk of one byte, on the pixel read back. -/
theorem idxReadsBackItsSlot : Obligations.IdxReadsBackItsSlot := by
  unfold Obligations.IdxReadsBackItsSlot
  intro slot px s
  exact ⟨fun hread hroom => exec_writes hread (.inl rfl) rfl hroom, execIdx_unwritten⟩

/-- Settles O16: the byte's three fields are the deltas, and adding a delta wraps. -/
theorem diffAddsItsDeltas : Obligations.DiffAddsItsDeltas := by
  unfold Obligations.DiffAddsItsDeltas
  intro b0 rest s htag
  refine ⟨_, _, _, decode_diff htag rest, rfl, rfl, rfl, fun hroom => ⟨_, exec_writes rfl (.inl rfl) rfl hroom, ?_⟩⟩
  exact ⟨addDelta_toNat .., addDelta_toNat .., addDelta_toNat .., rfl⟩

/-- Settles O17: the two bytes' three fields are the deltas, and adding a delta wraps. -/
theorem lumaAddsItsDeltas : Obligations.LumaAddsItsDeltas := by
  unfold Obligations.LumaAddsItsDeltas
  intro b0 b1 rest s htag
  refine ⟨_, _, _, decode_luma htag b1 rest, rfl, rfl, rfl, fun hfits hroom => ?_,
    fun hshort => exec_truncated (nofun) hshort⟩
  exact ⟨_, exec_writes rfl (.inr hfits) rfl hroom, addDelta_toNat .., addDelta_toNat .., addDelta_toNat .., rfl⟩

/-- Settles O18: the memory the statement asks for is the one a RUN that is done leaves. -/
theorem runReplaysPrev : Obligations.RunReplaysPrev := by
  unfold Obligations.RunReplaysPrev
  intro b0 rest s hlow hhigh
  refine ⟨decode_run hlow hhigh rest, fun hroom => ?_, fun hfull => execRun_overflow (by omega) s hfull,
    fun hscan hp => hscan.prev_first hp⟩
  obtain ⟨d, hexec, m, rfl, -, hread, -⟩ := execRun_done (by omega) hroom
  exact ⟨m, hexec, hread⟩

/-- Settles O19: a reference that is written is a pixel reconstructed, and such a chunk can only overflow. -/
theorem overflowRaisesAtChunkStart : Obligations.OverflowRaisesAtChunkStart := by
  unfold Obligations.OverflowRaisesAtChunkStart
  intro i s hw hfull hfits hwritten
  have hpx : ∃ px, chunkPixel i s.dec = some px := by
    cases i with
    | idx slot => exact Option.isSome_iff_exists.mp (hwritten slot rfl)
    | diff | luma | run | rgb | rgba => exact ⟨_, rfl⟩
  obtain ⟨px, hpx⟩ := hpx
  exact ⟨exec_overflow hpx hfits hw hfull, rfl, rfl, rfl⟩

/-- Settles O21: a chunk raises a cause that keeps the latched header, or is done. -/
theorem chunkFrame : Obligations.ChunkFrame := by
  unfold Obligations.ChunkFrame
  intro i s t hw hphase h
  obtain ⟨c, hc⟩ | ⟨px, d, hd, -, m, rfl, -, hread, -⟩ := exec_cases hw s
  · have hlatched := exec_latched hc
    obtain rfl := Host.Outcome.next.inj (hc.symm.trans h)
    exact ⟨rfl, rfl, rfl, rfl, rfl, rfl, raiseFormatError_dec_W _ _ _ hlatched, raiseFormatError_dec_H _ _ _ hlatched,
      raiseFormatError_dec_chan _ _ _ hlatched, raiseFormatError_dec_cs _ _ _ hlatched, fun hne => absurd rfl hne⟩
  · obtain rfl := Host.Outcome.next.inj (hd.symm.trans h)
    refine ⟨rfl, rfl, rfl, rfl, rfl, rfl, rfl, rfl, rfl, rfl, fun _ => ⟨rfl, rfl, rfl, rfl, rfl, ?_, ?_⟩⟩
    · exact fun q hq => (hread q).trans (if_neg hq)
    · exact fun slot hslot => (cacheRead_cacheWrite ..).trans (if_neg hslot)

end Sys2Proof.Machine
end

section
/-! PROOFS. The decoder's START, its header step and its finish step, and the chunk step that the machine takes (R200 to
R206, R210, R251 to R253, R256). -/

namespace Sys2Proof.Machine

/-! #### START -/

theorem DecState.startable_iff (d : DecState) :
    d.startable = true ↔ d.phase = .idle ∨ d.phase = .done ∨ d.phase = .error := by
  unfold DecState.startable
  cases d.phase <;> decide

theorem beginDecode_len {bytes : List Byte} (hlen : bytes.length < 2 ^ 64) (supply : Nat) (s : State) :
    (beginDecode bytes supply s).dec.len.toNat = bytes.length := by
  rw [beginDecode_dec_len, BitVec.toNat_ofNat, Nat.mod_eq_of_lt hlen]

/-- Settles O41: the guards of START are the ones supposed, and what it binds is `beginDecode`. -/
theorem decodeStartBinds : Obligations.DecodeStartBinds := by
  unfold Obligations.DecodeStartBinds
  intro bytes supply s
  refine ⟨fun hphase hlen => ⟨beginDecode bytes supply s, ?_, beginDecode_len hlen supply s, rfl, rfl, rfl, rfl, rfl, rfl,
    fun k => Memory.read_ofList bytes k⟩, fun hidle hdone herror => ⟨.startWhileRunning, ?_⟩⟩
  · rw [hostStep, hostStartDecode, if_pos (s.dec.startable_iff.mpr hphase), if_pos hlen]
  · have hbusy : ¬ s.dec.startable = true := by
      rw [s.dec.startable_iff]
      exact not_or.mpr ⟨hidle, not_or.mpr ⟨hdone, herror⟩⟩
    rw [hostStep, hostStartDecode, if_neg hbusy]

/-! #### The header step -/

theorem decStep_headerPhase {s : State} (h : s.dec.phase = .header) : decStep s = decHeaderStep s := by
  simp only [decStep, h]

theorem decHeaderStep_of_short {s : State} (hshort : s.dec.len.toNat < 4) :
    decHeaderStep s = .next (raiseFormatError .badMagic 0 s) := by
  rw [decHeaderStep, if_pos hshort]

theorem decHeaderStep_of_read {s : State} {bs : List Byte} (hlen : 4 ≤ s.dec.len.toNat)
    (hread : s.dec.bufReads 0 4 = some bs) :
    decHeaderStep s = if bs = [s.cfg.magic.b0, s.cfg.magic.b1, s.cfg.magic.b2, s.cfg.magic.b3] then checkedHeader s
      else .next (raiseFormatError .badMagic 0 s) := by
  rw [decHeaderStep, if_neg (by omega), hread]

/-- Settles O24: the buffer is too short to be read, or its first four bytes are read and compared. -/
theorem badMagicRaises : Obligations.BadMagicRaises := by
  unfold Obligations.BadMagicRaises
  intro s hphase hspans hbad
  refine ⟨?_, rfl, rfl, rfl⟩
  rw [decStep_headerPhase hphase]
  rcases Nat.lt_or_ge s.dec.len.toNat 4 with hshort | hlen
  · exact decHeaderStep_of_short hshort
  · obtain ⟨bs, hread⟩ := bufReads_spans hspans (show 0 + 4 ≤ s.dec.len.toNat by omega)
    have hne := hread ▸ hbad.resolve_left (by omega)
    rw [decHeaderStep_of_read hlen hread, if_neg fun heq => hne (congrArg some heq)]

/-- Settles O25: past the magic check the length is checked before any other byte is read. -/
theorem shortInputRaises : Obligations.ShortInputRaises := by
  unfold Obligations.ShortInputRaises
  intro s hphase hlen hshort hmagic
  refine ⟨?_, rfl, rfl, rfl⟩
  rw [decStep_headerPhase hphase, decHeaderStep_of_read hlen hmagic, if_pos rfl, checkedHeader, if_pos hshort]

/-- The header step on a buffer that begins with a header: the dimensions its bytes say, if the host supplies the
surface they ask for (R71, R203, R204). -/
theorem decHeaderStep_of_header {s : State} {W H : U32} {ch cs : Byte} {rest : List Byte}
    (hsrc : s.dec.src = Memory.ofList (headerBytes s.cfg.magic W H ch cs ++ rest)) (hlen : 22 ≤ s.dec.len.toNat) :
    decHeaderStep s = if s.dec.supply < W.toNat * H.toNat then .refused .noOutputSurface
      else .next { s with dec := latchHeader W H ch cs s.dec } := by
  have hmagic : s.dec.bufReads 0 4 = some [s.cfg.magic.b0, s.cfg.magic.b1, s.cfg.magic.b2, s.cfg.magic.b3] :=
    bufReads_block (pre := []) (bs := [s.cfg.magic.b0, s.cfg.magic.b1, s.cfg.magic.b2, s.cfg.magic.b3])
      (rest := be32 W ++ be32 H ++ [ch, cs] ++ rest) hsrc
  have hfields : s.dec.bufReads 4 10 = some (be32 W ++ be32 H ++ [ch, cs]) :=
    bufReads_block (pre := [s.cfg.magic.b0, s.cfg.magic.b1, s.cfg.magic.b2, s.cfg.magic.b3])
      (bs := be32 W ++ be32 H ++ [ch, cs]) (rest := rest) hsrc
  rw [decHeaderStep_of_read (by omega) hmagic, if_pos rfl, checkedHeader, if_neg (by omega), hfields]
  simp only [be32, List.cons_append, List.nil_append, ofBe32_be32]
  rfl

/-- Settles O26: the header's bytes say W and H, and a chunk region is there where more than the end marker follows. -/
theorem headerStepLatches : Obligations.HeaderStepLatches := by
  unfold Obligations.HeaderStepLatches
  intro W H chan cs rest s hphase hsrc hlen hrest
  rw [decStep_headerPhase hphase, decHeaderStep_of_header hsrc (by omega)]
  refine ⟨fun hsupply => ?_, fun hsupply => if_pos hsupply⟩
  have hregion : Config.hdrLen + Config.endLen < s.dec.len.toNat ↔ 8 < rest.length := by
    show 14 + 8 < s.dec.len.toNat ↔ _
    omega
  rw [if_neg (by omega)]
  simp only [latchHeader, hregion]
  rfl

/-! #### The chunk step -/

/-- Settles O28: the chunk step raises on the first byte alone. -/
theorem truncatedChunkRaises : Obligations.TruncatedChunkRaises := by
  unfold Obligations.TruncatedChunkRaises
  intro b0 s hphase hb hlong hshort
  refine ⟨?_, rfl, rfl, rfl⟩
  rw [decStep_chunks hphase]
  exact decChunkStep_truncated hb hlong hshort

/-- Settles O29: the step is DEC's, DEC's is the chunk step, and the chunk step is the chunk's meaning. -/
theorem stepRunsTheDecodedChunk : Obligations.StepRunsTheDecodedChunk := by
  unfold Obligations.StepRunsTheDecodedChunk
  intro i s hmove hphase hw hbytes hfits
  calc step s = decStep s.takeMove := step_of_nextMove hmove
    _ = decChunkStep s.takeMove := decStep_chunks hphase
    _ = exec i s.takeMove := decChunkStep_of_bytes hw hbytes hfits

/-! #### The finish step -/

theorem decStep_finishPhase {s : State} (h : s.dec.phase = .finish) : decStep s = decFinishStep s := by
  simp only [decStep, h]

/-- Settles O27: the two branches of the finish step. -/
theorem finishStepChecksPixelCount : Obligations.FinishStepChecksPixelCount := by
  unfold Obligations.FinishStepChecksPixelCount
  intro s hphase
  rw [decStep_finishPhase hphase]
  exact ⟨fun hN => if_pos hN, fun hN => ⟨if_neg hN, rfl, rfl, rfl⟩⟩

end Sys2Proof.Machine
end

section
/-! PROOFS. The decoder does not look at `DELTA_MODE` (R222). -/

namespace Sys2Proof.Machine

theorem checkedHeader_mode (s : State) (m : DeltaMode) :
    checkedHeader (s.withMode m) = mapNext (State.withMode m) (checkedHeader s) := by
  unfold checkedHeader
  rw [withMode_dec]
  split
  · rfl
  · split
    · dsimp only
      split <;> rfl
    · rfl

/-- The header step looks at MAGIC only. -/
theorem decHeaderStep_mode (s : State) (m : DeltaMode) :
    decHeaderStep (s.withMode m) = mapNext (State.withMode m) (decHeaderStep s) := by
  unfold decHeaderStep
  rw [withMode_dec, withMode_cfg_magic]
  split
  · rfl
  · split
    · split
      · exact checkedHeader_mode s m
      · rfl
    · rfl

theorem decChunkStep_mode (s : State) (m : DeltaMode) :
    decChunkStep (s.withMode m) = mapNext (State.withMode m) (decChunkStep s) := by
  unfold decChunkStep
  rw [withMode_dec]
  split
  · rfl
  · split
    · split
      · rfl
      · split
        · exact exec_mode _ s m
        · rfl
    · rfl

theorem decFinishStep_mode (s : State) (m : DeltaMode) :
    decFinishStep (s.withMode m) = mapNext (State.withMode m) (decFinishStep s) := by
  unfold decFinishStep
  rw [withMode_dec]
  split <;> rfl

/-- Settles O53: no step of DEC looks at the mode, in any phase. -/
theorem decoderIgnoresDeltaMode : Obligations.DecoderIgnoresDeltaMode := by
  unfold Obligations.DecoderIgnoresDeltaMode
  intro s m
  unfold decStep
  rw [withMode_dec]
  cases s.dec.phase with
  | header => exact decHeaderStep_mode s m
  | chunks => exact decChunkStep_mode s m
  | finish => exact decFinishStep_mode s m
  | idle | done | error => rfl

end Sys2Proof.Machine
end

section
/-! PROOFS. DECODE from its START to DONE or ERROR: a chunk step consumes a byte of the chunk region or raises (R204,
R223). -/

namespace Sys2Proof.Machine

/-- DEC takes no step from here (R210, R261). -/
def DecState.ended (d : DecState) : Prop := d.phase = .done ∨ d.phase = .error

/-- DEC is past its header step. -/
def DecState.scans (d : DecState) : Prop := d.phase = .chunks ∨ d.phase = .finish

theorem decStep_ended {s : State} (h : s.dec.ended) : decStep s = .next s := by
  obtain hphase | hphase := h
  · simp only [decStep, hphase]
  · simp only [decStep, hphase]

theorem finishStep_ends {s : State} (hphase : s.dec.phase = .finish) : ∃ t, decStep s = .next t ∧ t.dec.ended := by
  rw [decStep_finishPhase hphase, decFinishStep]
  split
  · exact ⟨_, rfl, .inl rfl⟩
  · exact ⟨_, rfl, .inr rfl⟩

/-- A chunk step raises, or does a chunk and leaves a scanning decoder further on in its buffer. -/
theorem chunkStep_advances {s t : State} (hinv : DecInv s.dec) (hphase : s.dec.phase = .chunks)
    (h : decStep s = .next t) : (∃ c, t = raiseFormatError c s.dec.pos s) ∨
      ∃ i px d, t = { s with dec := d } ∧ ChunkDone i px s.dec d ∧ d.scans ∧ s.dec.pos.toNat < d.pos.toNat := by
  obtain ⟨hscan, hregion⟩ := (decInv_chunks hphase).mp hinv
  obtain hraise | ⟨i, px, d, hw, rfl, -, hdone, hfits⟩ :=
    scanning_chunkStep hscan hregion ((decStep_chunks hphase).symm.trans h)
  · exact .inl hraise
  · obtain ⟨-, -, hpos, hnext⟩ := scanning_chunkDone hw hscan hdone hfits
    have hi := length_pos i
    refine .inr ⟨i, px, d, rfl, hdone, ?_, by omega⟩
    split at hnext
    · exact .inr hnext
    · exact .inl (hnext.trans hphase)

/-- A scanning decoder with at most n bytes of the chunk region left ends within n + 1 steps. -/
theorem scanning_ends {n : Nat} {s : State} (hinv : DecInv s.dec) (hscans : s.dec.scans)
    (hleft : s.dec.len.toNat ≤ s.dec.pos.toNat + 8 + n) :
    ∃ k t, k ≤ n + 1 ∧ decSteps k s = .next t ∧ t.dec.ended := by
  induction n generalizing s with
  | zero =>
    have hphase : s.dec.phase = .finish := hscans.resolve_left fun hchunks => by
      obtain ⟨-, hregion⟩ := (decInv_chunks hchunks).mp hinv
      omega
    obtain ⟨t, ht, hend⟩ := finishStep_ends hphase
    exact ⟨1, t, Nat.le_refl 1, decSteps_one ht, hend⟩
  | succ n ih =>
    obtain hphase | hphase := hscans
    · obtain ⟨t, ht⟩ := (decStep_next hinv).resolve_right fun h => by simp [hphase] at h
      obtain ⟨c, rfl⟩ | ⟨i, px, d, rfl, ⟨m, rfl, -⟩, hscans', hpos⟩ := chunkStep_advances hinv hphase ht
      · exact ⟨1, _, by omega, decSteps_one ht, .inr rfl⟩
      · obtain ⟨k, u, hk, hsteps, hend⟩ := ih (decStep_keeps_decInv hinv ht) hscans'
          (by show s.dec.len.toNat ≤ (chunkEnd i px m s.dec).pos.toNat + 8 + n; omega)
        exact ⟨1 + k, u, by omega, decSteps_trans (decSteps_one ht) hsteps, hend⟩
    · obtain ⟨t, ht, hend⟩ := finishStep_ends hphase
      exact ⟨1, t, by omega, decSteps_one ht, hend⟩

theorem latchHeader_scans (W H : U32) (ch cs : Byte) (d : DecState) : (latchHeader W H ch cs d).scans := by
  unfold DecState.scans latchHeader
  dsimp only
  split
  · exact .inl rfl
  · exact .inr rfl

/-- Settles O55: the header step raises or latches, and a latched decoder has `dec.len - 22` bytes left. -/
theorem decodeEndsWithinLength : Obligations.DecodeEndsWithinLength := by
  unfold Obligations.DecodeEndsWithinLength
  intro bytes supply s hlen
  have hinv := decInv_beginDecode (n := supply) (s := s) hlen
  have hlen' := beginDecode_len hlen supply s
  obtain ⟨t, ht⟩ | ⟨-, hrefused⟩ := decStep_next hinv
  · right
    obtain rfl | ⟨-, rfl⟩ | ⟨W, H, ch, cs, h22, -, rfl⟩ := decHeaderStep_cases ht
    · exact ⟨1, _, by omega, decSteps_one ht, .inr rfl⟩
    · exact ⟨1, _, by omega, decSteps_one ht, .inr rfl⟩
    · obtain ⟨k, u, hk, hsteps, hend⟩ := scanning_ends (n := bytes.length - 22) (decStep_keeps_decInv hinv ht)
        (latchHeader_scans W H ch cs _) (by rw [latchHeader_len, latchHeader_pos, hlen']; simp; omega)
      exact ⟨1 + k, u, by omega, decSteps_trans (decSteps_one ht) hsteps, hend⟩
  · exact .inl hrefused

end Sys2Proof.Machine
end

section
/-! PROOFS. The round trip (R220, R221): the bytes of a finished ENCODE are a header, chunks that the decoder replays,
and an end marker, and a decoder that has read them all without an error holds the surface. -/

namespace Sys2Proof.Machine

/-! #### What a run keeps -/

theorem encSteps_keeps {P : State → Prop} (hstep : ∀ {s t : State}, P s → encStep s = .next t → P t) {k : Nat}
    {s t : State} (hs : P s) (h : encSteps k s = .next t) : P t := by
  induction k generalizing t with
  | zero => exact Host.Outcome.next.inj h ▸ hs
  | succ k ih =>
    obtain ⟨u, hu, hut⟩ := encSteps_succ_last h
    exact hstep (ih hu) hut

theorem encSteps_header {k : Nat} {s t : State} (hphase : s.enc.phase = .header) (h : encSteps (k + 1) s = .next t) :
    encSteps k { s with enc := encHeader s.cfg.magic s.enc } = .next t := by
  simpa only [encSteps, encStep, hphase] using h

theorem decSteps_keeps {P : State → Prop} (hstep : ∀ {s t : State}, P s → decStep s = .next t → P t) {k : Nat}
    {s t : State} (hs : P s) (h : decSteps k s = .next t) : P t := by
  induction k generalizing s with
  | zero => exact Host.Outcome.next.inj h ▸ hs
  | succ k ih =>
    cases hu : decStep s with
    | next u => exact ih (hstep hs hu) (by simpa only [decSteps, hu] using h)
    | fault r => simp [decSteps, hu] at h
    | refused r => simp [decSteps, hu] at h

/-! #### The bytes of a finished ENCODE -/

/-- The encoder's buffer begins with `front`, and its surface holds `pixels`. -/
def Coding (front : List Byte) (pixels : List Pixel) (e : EncState) : Prop :=
  (∃ body, Buffered (front ++ body) e) ∧ ∀ q, e.pixRead q = pixels[q]?

theorem coding_encStep {front : List Byte} {pixels : List Pixel} {s t : State} (hs : Coding front pixels s.enc)
    (h : encStep s = .next t) : Coding front pixels t.enc := by
  obtain ⟨⟨body, hbuf⟩, hpixels⟩ := hs
  obtain ⟨hsrc, hW, hH, bs, hdst⟩ := encStep_appends h
  refine ⟨⟨body ++ bs, ?_⟩, fun q => ?_⟩
  · rw [Buffered, hdst, ← List.append_assoc]
    exact buffered_emit bs hbuf
  · rw [EncState.pixRead, hsrc, hW, hH]
    exact hpixels q

theorem coding_encHeader {W H : U32} {pixels : List Pixel} (hpixels : pixels.length = W.toNat * H.toNat) (s : State) :
    Coding (headerBytes s.cfg.magic W H Config.channelsOut Config.colorspaceOut) pixels
      (encHeader s.cfg.magic (beginEncode W H pixels s).enc) := by
  refine ⟨⟨[], ?_⟩, fun q => ?_⟩
  · rw [Buffered, encHeader_dst, List.append_nil]
    exact buffered_emit (L := []) _ rfl
  · rw [EncState.pixRead, encHeader_src, encHeader_W, encHeader_H]
    by_cases hq : q < pixels.length
    · exact beginEncode_pixRead hpixels hq
    · rw [List.getElem?_eq_none (Nat.le_of_not_lt hq)]
      exact (EncState.pixRead_eq ..).trans (if_neg fun h => hq (h.trans_eq hpixels.symm))

theorem Buffered.units {bs : List Byte} {e : EncState} (h : Buffered bs e) : Memory.units e.dst = bs := by
  rw [h]
  exact units_ofListFrom 0 bs

theorem buffered_encFinish {bs : List Byte} {e : EncState} (h : Buffered bs e) :
    Buffered (bs ++ owedRun e ++ Config.endMarker) (encFinish e) := by
  have hflushed : Buffered (bs ++ owedRun e) (flushRun e) := by
    rw [Buffered, flushRun_eq]
    exact buffered_emit _ h
  rw [Buffered, encFinish_dst]
  exact buffered_emit _ hflushed

/-- The bytes of a whole file of the surface: a header, chunks that the decoder replays to the last pixel, and the end
marker. -/
structure Encoded (m : Magic) (W H : U32) (pixels : List Pixel) (bytes : List Byte) : Prop where
  size : 22 ≤ bytes.length ∧ bytes.length ≤ 22 + 5 * (W.toNat * H.toNat)
  header : ∃ body, bytes = headerBytes m W H Config.channelsOut Config.colorspaceOut ++ body
  chunks : ∃ front e, bytes = front ++ Config.endMarker ∧ Replays m front e ∧ e.N = W.toNat * H.toNat ∧ e.run = 0 ∧
    e.i.toNat = e.N ∧ ∀ q, e.pixRead q = pixels[q]?

/-- ENCODE ends in DONE with the bytes of a whole file of its surface. -/
theorem encSteps_encoded {W H : U32} {pixels : List Pixel} (hpixels : pixels.length = W.toNat * H.toNat) (s : State) :
    ∃ t, encSteps (W.toNat * H.toNat + 2) (beginEncode W H pixels s) = .next t ∧ t.enc.phase = .done ∧
      t.cfg = s.cfg ∧ Encoded s.cfg.magic W H pixels (Memory.units t.enc.dst) := by
  obtain ⟨u, hu, hlock⟩ := encSteps_to_pixel hpixels s (Nat.le_refl _)
  obtain ⟨hN, hscan, hi, hphase, bs, hbuf, hrep⟩ := hlock
  rw [if_pos rfl] at hphase
  have hlast := encStep_finish hphase
  have hcfg : u.cfg = s.cfg := encSteps_keeps (s := beginEncode W H pixels s) (P := fun v => v.cfg = s.cfg)
    (fun hv h => by rw [encStep_only_enc h]; exact hv) rfl hu
  have hcoding : Coding (headerBytes s.cfg.magic W H Config.channelsOut Config.colorspaceOut) pixels u.enc := by
    refine encSteps_keeps (P := fun v => Coding _ pixels v.enc) coding_encStep ?_ (encSteps_header rfl hu)
    exact coding_encHeader hpixels s
  refine ⟨_, encSteps_trans (a := W.toNat * H.toNat + 1) hu (encSteps_one hlast), rfl, hcfg, ?_, ?_, ?_⟩
  · obtain ⟨hlow, hhigh, -⟩ := (encInv_done rfl).mp (encDone_of_finish hscan (hi.trans hN.symm))
    rw [encFinish_N, hN] at hhigh
    rw [Memory.units, List.length_map]
    exact ⟨hlow, hhigh⟩
  · obtain ⟨⟨body, hbody⟩, -⟩ := coding_encStep hcoding hlast
    exact ⟨body, hbody.units⟩
  · have hcap := hscan.runCap
    refine ⟨bs ++ owedRun u.enc, { u.enc with run := 0 }, (buffered_encFinish hbuf).units, ?_, hN, rfl,
      hi.trans hN.symm, hcoding.2⟩
    rw [← hcfg]
    exact hrep.flushed (by omega) hscan.inSurface

/-! #### The decoder on those bytes -/

/-- The decoder has taken its header step on a buffer of `len` bytes. -/
structure Latched (W H : U32) (ch cs : Byte) (len : Nat) (d : DecState) : Prop where
  inv : DecInv d
  size : d.len.toNat = len
  /-- An error withdraws the surface, and only a chunk or a missing pixel raises it; without one the header is held. -/
  outcome : (d.phase = .error ∧ d.dst = [] ∧ (0 < W.toNat * H.toNat ∨ 22 < len)) ∨
    ((d.scans ∨ d.phase = .done) ∧ d.W = W ∧ d.H = H ∧ d.chan = ch ∧ d.cs = cs)

theorem latched_decStep {W H : U32} {ch cs : Byte} {len : Nat} {s t : State} (hs : Latched W H ch cs len s.dec)
    (h : decStep s = .next t) : Latched W H ch cs len t.dec := by
  obtain ⟨hinv, hlen, houtcome⟩ := hs
  have hinv' := decStep_keeps_decInv hinv h
  obtain ⟨herror, hwithdrawn⟩ | ⟨(hphase | hphase) | hphase, hW, hH, hregs⟩ := houtcome
  · obtain rfl := Host.Outcome.next.inj ((decStep_ended (.inr herror)).symm.trans h)
    exact ⟨hinv, hlen, .inl ⟨herror, hwithdrawn⟩⟩
  · obtain ⟨c, rfl⟩ | ⟨i, px, d, rfl, ⟨m, rfl, -⟩, hscans, -⟩ := chunkStep_advances hinv hphase h
    · obtain ⟨hscan, hregion⟩ := (decInv_chunks hphase).mp hinv
      have hlow := hscan.posLow
      exact ⟨hinv', hlen, .inl ⟨rfl, rfl, .inr (by omega)⟩⟩
    · exact ⟨hinv', hlen, .inr ⟨.inl hscans, hW, hH, hregs⟩⟩
  · rw [decStep_finishPhase hphase, decFinishStep] at h
    split at h
    · obtain rfl := Host.Outcome.next.inj h
      exact ⟨hinv', hlen, .inr ⟨.inr rfl, hW, hH, hregs⟩⟩
    · next hmissing =>
      obtain rfl := Host.Outcome.next.inj h
      have hin := ((decInv_finish hphase).mp hinv).1.inSurface
      rw [DecState.N, hW, hH] at hmissing hin
      exact ⟨hinv', hlen, .inl ⟨rfl, rfl, .inl (by omega)⟩⟩
  · obtain rfl := Host.Outcome.next.inj ((decStep_ended (.inl hphase)).symm.trans h)
    exact ⟨hinv, hlen, .inr ⟨.inr hphase, hW, hH, hregs⟩⟩

/-- A decoder at the end of its chunk region with all pixels written takes at most the finish step to DONE. -/
theorem decStep_lastPixel {s : State} (hphase : s.dec.phase = .finish ∨ s.dec.phase = .done)
    (hN : s.dec.p.toNat = s.dec.N) : decStep s = .next { s with dec := { s.dec with phase := .done } } := by
  obtain hphase | hphase := hphase
  · rw [decStep_finishPhase hphase, decFinishStep, if_pos hN]
  · rw [decStep_ended (.inl hphase), ← hphase]

/-- A decoder that has read a whole file and holds its surface has raised nothing. -/
theorem Latched.outcome_of_mirrors {W H : U32} {ch cs : Byte} {len : Nat} {front : List Byte} {e : EncState}
    {d : DecState} (h : Latched W H ch cs len d) (hcons : Consumed front Config.endMarker d) (hmir : Mirrors e d)
    (hwhole : ∀ q, q < d.p.toNat → (e.pixRead q).isSome = true) (hp : d.p.toNat = W.toNat * H.toNat)
    (hlen : len ≤ 22 + 5 * (W.toNat * H.toNat)) :
    (d.phase = .finish ∨ d.phase = .done) ∧ d.W = W ∧ d.H = H ∧ d.chan = ch ∧ d.cs = cs := by
  obtain ⟨hinv, hsize, ⟨-, hdst, hwhy⟩ | ⟨(hphase | hphase) | hphase, hregs⟩⟩ := h
  · exfalso
    have hread := hwhole 0 (by omega)
    rw [← hmir.pixels 0 (by omega), DecState.pixRead_eq, hdst] at hread
    simp at hread
  · obtain ⟨-, hregion⟩ := (decInv_chunks hphase).mp hinv
    rw [hcons.pos, hcons.len] at hregion
    exact absurd hregion (Nat.lt_irrefl _)
  · exact ⟨.inl hphase, hregs⟩
  · exact ⟨.inr hphase, hregs⟩

/-- A decoder that has left the start of a buffer that begins with a header has latched that header. -/
theorem latched_of_header {W H : U32} {ch cs : Byte} {bytes body : List Byte} {supply j : Nat} {s v : State}
    (hbytes : bytes = headerBytes s.cfg.magic W H ch cs ++ body) (hlow : 22 ≤ bytes.length)
    (hlen : bytes.length < 2 ^ 64) (hsupply : W.toNat * H.toNat ≤ supply)
    (hsteps : decSteps j (beginDecode bytes supply s) = .next v) (hpos : v.dec.pos ≠ 0) :
    Latched W H ch cs bytes.length v.dec := by
  have hsize := beginDecode_len hlen supply s
  have hheader : decStep (beginDecode bytes supply s) =
      .next { beginDecode bytes supply s with dec := latchHeader W H ch cs (beginDecode bytes supply s).dec } := by
    rw [decStep_headerPhase rfl, decHeaderStep_of_header (congrArg Memory.ofList hbytes) (by omega)]
    exact if_neg (Nat.not_lt.mpr hsupply)
  cases j with
  | zero => exact absurd (by rw [← Host.Outcome.next.inj hsteps]; rfl) hpos
  | succ j =>
    simp only [decSteps, hheader] at hsteps
    refine decSteps_keeps (P := fun u => Latched W H ch cs bytes.length u.dec) latched_decStep ?_ hsteps
    exact ⟨decStep_keeps_decInv (decInv_beginDecode hlen) hheader, hsize,
      .inr ⟨.inl (latchHeader_scans ..), rfl, rfl, rfl, rfl⟩⟩

/-- DECODE of a whole file ends in DONE with the surface. -/
theorem Encoded.decodes {W H : U32} {pixels : List Pixel} {bytes : List Byte} {supply : Nat} {s : State}
    (hpixels : pixels.length = W.toNat * H.toNat) (h : Encoded s.cfg.magic W H pixels bytes)
    (hlen : bytes.length < 2 ^ 64) (hsupply : W.toNat * H.toNat ≤ supply) :
    ∃ k u, decSteps k (beginDecode bytes supply s) = .next u ∧ u.dec.phase = .done ∧ u.dec.W = W ∧ u.dec.H = H ∧
      u.dec.chan = 4 ∧ u.dec.cs = 0 ∧ ∀ q, u.dec.pixRead q = pixels[q]? := by
  obtain ⟨⟨hlow, hhigh⟩, ⟨body, hbody⟩, front, e, hfront, hrep, hN, hrun, hi, hread⟩ := h
  have hsplit : bytes.length = front.length + 8 := by rw [hfront, List.length_append]; rfl
  obtain ⟨j, v, hsteps, hcons, hmir⟩ := hrep Config.endMarker supply s rfl (Nat.le_refl 8) (hN ▸ hsupply)
    (hsplit ▸ hlen)
  rw [← hfront] at hsteps
  have hpos : v.dec.pos ≠ 0 := fun h0 => by
    have hfront0 := hcons.pos
    rw [h0] at hfront0
    simp at hfront0
    omega
  have hlatched := latched_of_header hbody hlow hlen hsupply hsteps hpos
  have hp : v.dec.p.toNat = W.toNat * H.toNat := by
    have hpos := hmir.position
    rw [hrun] at hpos
    exact hpos.trans (hi.trans hN)
  have hwhole (q : Nat) (hq : q < v.dec.p.toNat) : (e.pixRead q).isSome = true := by
    rw [hread, List.getElem?_eq_getElem (by omega)]
    rfl
  obtain ⟨hphase, hW, hH, hch, hcs⟩ := hlatched.outcome_of_mirrors hcons hmir hwhole hp hhigh
  have hlast := decStep_lastPixel hphase (hp.trans (hN.symm.trans hmir.N_eq.symm))
  refine ⟨j + 1, _, decSteps_trans hsteps (decSteps_one hlast), rfl, hW, hH, hch, hcs, fun q => ?_⟩
  show v.dec.pixRead q = pixels[q]?
  by_cases hq : q < v.dec.p.toNat
  · rw [hmir.pixels q hq, hread]
  · rw [List.getElem?_eq_none (by omega), DecState.pixRead_eq, if_neg]
    rw [hmir.N_eq, hN, ← hp]
    exact hq

/-- Settles O56: ENCODE ends with the bytes of a whole file of the surface, and DECODE of them ends with the surface. -/
theorem decodeOfEncodeIsTheSurface : Obligations.DecodeOfEncodeIsTheSurface := by
  unfold Obligations.DecodeOfEncodeIsTheSurface
  intro W H pixels s hpixels
  obtain ⟨t, hsteps, hdone, hcfg, hencoded⟩ := encSteps_encoded hpixels s
  refine ⟨t, hsteps, hdone, fun supply hlen hsupply => ?_⟩
  rw [← hcfg] at hencoded
  exact hencoded.decodes hpixels (by rwa [Memory.units, List.length_map]) hsupply

end Sys2Proof.Machine
end

section
/-! PROOFS. The FormatError exception (R250, R258, R260, R261), and that a step from the invariant does not stop but
where the host asks for what is refused (R218, R262, R269). -/

namespace Sys2Proof.Machine

/-! #### What raising leaves -/

/-- R260: the causes raised once the header is latched are those the header step does not raise. -/
theorem latchedBy_iff (c : Cause) : latchedBy c = true ↔ c ≠ .badMagic ∧ c ≠ .shortInput := by
  cases c <;> decide

/-- Raising withdraws the surface (entry 8). -/
theorem raiseFormatError_written (c : Cause) (e : U64) (s : State) (q : Nat) :
    (raiseFormatError c e s).dec.written q = false := by
  rw [DecState.written_eq, raiseFormatError_dec_dst, Memory.read_nil, Option.isSome_none, Bool.and_false]

/-- Settles O22: a cause other than the header step's two is raised with the header latched, and the surface it leaves
lists nothing. -/
theorem formatErrorEntry : Obligations.FormatErrorEntry := by
  unfold Obligations.FormatErrorEntry
  intro c e s
  refine ⟨rfl, rfl, rfl, fun hmagic hshort => ?_, raiseFormatError_written c e s, rfl, rfl, rfl, rfl, rfl,
    rfl, rfl, rfl, rfl, rfl, rfl⟩
  have hlatched : latchedBy c = true := (latchedBy_iff c).mpr ⟨hmagic, hshort⟩
  exact ⟨raiseFormatError_dec_W c e s hlatched, raiseFormatError_dec_H c e s hlatched,
    raiseFormatError_dec_chan c e s hlatched, raiseFormatError_dec_cs c e s hlatched⟩

/-! #### How ERROR is left -/

/-- A host action leaves the decoder as it is, or is a DECODE START. -/
theorem hostStep_dec {a : HostAction} {s t : State} (h : hostStep a s = .next t) :
    t.dec = s.dec ∨ ∃ bytes supply, a = .startDecode bytes supply ∧ t = beginDecode bytes supply s := by
  rcases hostStep_cases h with ⟨W, H, px, room, -, -, -, -, rfl⟩ | ⟨bytes, supply, ha, -, -, ht⟩ | ⟨v, rfl⟩
  · exact .inl rfl
  · exact .inr ⟨bytes, supply, ha, ht⟩
  · exact .inl rfl

/-- Settles O23: of the host's actions only a DECODE START writes the decoder, ENC never does, and in ERROR DEC takes no
step. -/
theorem errorIsLeftOnlyByStart : Obligations.ErrorIsLeftOnlyByStart := by
  unfold Obligations.ErrorIsLeftOnlyByStart
  intro m s t herror h
  cases m with
  | host a =>
    rcases hostStep_dec h with hdec | ⟨bytes, supply, rfl, rfl⟩
    · exact .inl hdec
    · exact .inr ⟨bytes, supply, rfl, beginDecode_dec_phase ..⟩
  | enc => exact .inl (by rw [encStep_only_enc h])
  | dec =>
    have hstays : Host.Outcome.next s = .next t := (decStep_ended (.inr herror)).symm.trans h
    exact .inl (by rw [Host.Outcome.next.inj hstays])

/-! #### What can stop -/

theorem noFault_iff (o : Host.Outcome State Fault Refusal) :
    noFault o = true ↔ (∃ t, o = .next t) ∨ ∃ r, o = .refused r := by
  cases o <;> simp [noFault]

/-- A guard whose other branch is a refusal adds no fault. -/
theorem noFault_guard {p : Prop} [Decidable p] {o : Host.Outcome State Fault Refusal} (r : Refusal)
    (h : noFault o = true) : noFault (if p then o else .refused r) = true := by
  split
  · exact h
  · rfl

/-- A host action never faults: it is a next state behind guards that refuse (R269). -/
theorem hostStep_noFault (a : HostAction) (s : State) : noFault (hostStep a s) = true := by
  cases a with
  | startEncode W H px room => exact noFault_guard _ (noFault_guard _ (noFault_guard _ rfl))
  | startDecode bytes supply => exact noFault_guard _ (noFault_guard _ rfl)
  | readEncoded | readDecoded => exact noFault_guard _ rfl
  | readEncStatus | readDecStatus => rfl

/-- Settles O50: the invariant does not look at the agenda, so it holds of the state the move is made on, where ENC's step
answers (`encStep_next`) and DEC's stops at a surface the host cannot supply only (`decStep_next`). -/
theorem invariantStepsDoNotStop : Obligations.InvariantStepsDoNotStop := by
  unfold Obligations.InvariantStepsDoNotStop
  intro s ⟨_, henc, hdec⟩
  cases hmove : s.nextMove with
  | none => exact .inl ⟨s, by simp only [step, hmove]⟩
  | some m =>
    rw [step_of_nextMove hmove]
    cases m with
    | host a =>
      rcases (noFault_iff _).mp (hostStep_noFault a s.takeMove) with hnext | ⟨r, hrefused⟩
      · exact .inl hnext
      · exact .inr (.inl ⟨a, r, rfl, hrefused⟩)
    | enc => exact .inl (encStep_next (s := s.takeMove) henc)
    | dec =>
      rcases decStep_next (s := s.takeMove) hdec with hnext | ⟨hheader, hrefused⟩
      · exact .inl hnext
      · exact .inr (.inr ⟨rfl, hheader, hrefused⟩)

end Sys2Proof.Machine
end

section
/-! PROOFS. Power-on (R280), and that no state of an earlier operation reaches a later one (R283): after a START two
machines differ only in what no step of that engine looks at. -/

namespace Sys2Proof.Machine

/-- Settles O44: the power-on records hold both phases. -/
theorem resetIsIdle : Obligations.ResetIsIdle := ⟨rfl, rfl⟩

/-! #### A change the steps of an engine do not look at -/

/-- A step that does not look at what `f` changes, and leaves it as it is: the changed machine takes the same step. -/
def Ignores (step : State → Host.Outcome State Fault Refusal) (f : State → State) : Prop :=
  ∀ s, step (f s) = mapNext f (step s)

theorem Ignores.comp {step : State → Host.Outcome State Fault Refusal} {f g : State → State} (hg : Ignores step g)
    (hf : Ignores step f) : Ignores step (g ∘ f) := by
  intro s
  rw [Function.comp_apply, hg, hf]
  cases step s with
  | next t | fault r | refused r => rfl

/-- What one step of ENC ignores, any number of them do. -/
theorem encSteps_ignores {f : State → State} (hf : Ignores encStep f) (k : Nat) : Ignores (encSteps k) f := by
  induction k with
  | zero => exact fun s => rfl
  | succ k ih =>
    intro s
    rw [encSteps, encSteps, hf]
    cases encStep s with
    | next t => exact ih t
    | fault r | refused r => rfl

/-- What one step of DEC ignores, any number of them do. -/
theorem decSteps_ignores {f : State → State} (hf : Ignores decStep f) (k : Nat) : Ignores (decSteps k) f := by
  induction k with
  | zero => exact fun s => rfl
  | succ k ih =>
    intro s
    rw [decSteps, decSteps, hf]
    cases decStep s with
    | next t => exact ih t
    | fault r | refused r => rfl

/-! #### ENCODE -/

/-- ENC's step does not look at the host port or the draw counter. -/
theorem encStep_ignores_host_draws (p : HostState) (n : Nat) :
    Ignores encStep fun s => { s with host := p, draws := n } := by
  intro s
  unfold encStep
  dsimp only
  cases s.enc.phase with
  | pixels =>
    unfold encPixelStep
    dsimp only
    cases (s.enc.pixRead s.enc.i.toNat).bind fun px => pixelEffect s.cfg.deltaMode px s.enc with
    | none | some e => rfl
  | idle | header | finish | done => rfl

/-- The machine `s` with all but ENC and the parameters taken from `s'`. -/
def State.encWithin (s' s : State) : State := { s with dec := s'.dec, host := s'.host, draws := s'.draws }

theorem encStep_ignores_encWithin (s' : State) : Ignores encStep s'.encWithin :=
  (encStep_ignores_host_draws s'.host s'.draws).comp fun s => encStep_dec s s'.dec

/-- ENCODE START writes every register of ENC, so what is left of another machine lies outside the engine. -/
theorem beginEncode_encWithin {s s' : State} (hcfg : s.cfg = s'.cfg) (W H : U32) (pixels : List Pixel) :
    s'.encWithin (beginEncode W H pixels s) = beginEncode W H pixels s' := by
  simp only [State.encWithin, beginEncode, hcfg]

/-- Settles O58: after START the two machines differ in the decoder, the host port and the draw counter only, which
ENC's steps ignore. -/
theorem encodeForgetsEarlierOperations : Obligations.EncodeForgetsEarlierOperations := by
  unfold Obligations.EncodeForgetsEarlierOperations
  intro W H pixels k s s' hcfg t ht
  have hsame := encSteps_ignores (encStep_ignores_encWithin s') k (beginEncode W H pixels s)
  rw [beginEncode_encWithin hcfg, ht] at hsame
  exact ⟨s'.encWithin t, hsame, rfl⟩

/-! #### DECODE -/

/-- A chunk's meaning does not look at the host port. -/
theorem exec_host (i : Instr) (s : State) (p : HostState) :
    exec i { s with host := p } = mapNext (fun t => { t with host := p }) (exec i s) := by
  have hclose : ∀ r, closeChunk r { s with host := p } = mapNext (fun t => { t with host := p }) (closeChunk r s) :=
    fun r => by cases r <;> rfl
  cases i <;> exact hclose _

/-- DEC's step does not look at the host port: its branches ask the decoder and MAGIC only. -/
theorem decStep_ignores_host (p : HostState) : Ignores decStep fun s => { s with host := p } := by
  intro s
  unfold decStep
  dsimp only
  cases s.dec.phase with
  | header =>
    unfold decHeaderStep checkedHeader
    dsimp only
    repeat' split
    all_goals rfl
  | chunks =>
    unfold decChunkStep
    dsimp only
    split
    · rfl
    · split
      · split
        · rfl
        · split
          · exact exec_host _ s p
          · rfl
      · rfl
  | finish =>
    unfold decFinishStep
    dsimp only
    split <;> rfl
  | idle | done | error => rfl

/-- The machine `s` with all but DEC, MAGIC and the draw counter taken from `s'`. -/
def State.decWithin (s' s : State) : State :=
  State.withMode s'.cfg.deltaMode { s with enc := s'.enc, host := s'.host }

theorem decStep_ignores_decWithin (s' : State) : Ignores decStep s'.decWithin :=
  have hmode : Ignores decStep (State.withMode s'.cfg.deltaMode) := fun s => decoderIgnoresDeltaMode s _
  have henc : Ignores decStep fun s => { s with enc := s'.enc } := fun s => decStep_enc s s'.enc
  hmode.comp ((decStep_ignores_host s'.host).comp henc)

/-- DECODE START writes every register of DEC from the buffer and the draw counter, so what is left of another machine
lies outside the engine (entry 9). -/
theorem beginDecode_decWithin {s s' : State} (hmagic : s.cfg.magic = s'.cfg.magic) (hdraws : s.draws = s'.draws)
    (bytes : List Byte) (supply : Nat) :
    s'.decWithin (beginDecode bytes supply s) = beginDecode bytes supply s' := by
  simp only [State.decWithin, State.withMode, beginDecode, hmagic, hdraws]

/-- Settles O54: after START the two machines differ in the mode, the encoder and the host port only, which DEC's steps
ignore, raising or not. -/
theorem decodeForgetsEarlierOperations : Obligations.DecodeForgetsEarlierOperations := by
  unfold Obligations.DecodeForgetsEarlierOperations
  intro bytes supply k s s' hmagic hdraws t ht
  have hsame := decSteps_ignores (decStep_ignores_decWithin s') k (beginDecode bytes supply s)
  rw [beginDecode_decWithin hmagic hdraws, ht] at hsame
  exact ⟨s'.decWithin t, hsame, rfl⟩

end Sys2Proof.Machine
end

section
/-! PROOFS. The canonical form of the memories at power-on (entry 11). -/

namespace Sys2Proof.Machine

/-- Settles O45: the canonical form is the part of the machine's invariant, met at reset, that speaks of the memories. -/
theorem resetMemoriesAreCanonical : Obligations.ResetMemoriesAreCanonical := by
  unfold Obligations.ResetMemoriesAreCanonical
  obtain ⟨hmem, -, -⟩ := resetMeetsInvariant
  exact hmem

end Sys2Proof.Machine
end
